-- ==== Sys2Proof/Word.lean ====
section
/-! DEFINITION. The block's words: every value is an unsigned bit vector, bit 0 the least significant
(spec/00_scope.md R9). The widths are those of R5 and R6. -/

namespace Sys2Proof

/-- A message byte, 8 bits (R5 `BYTE`). -/
abbrev Byte := BitVec 8

/-- A symbol code, 8 bits, any value (R6 `SYMW`). -/
abbrev Symbol := BitVec 8

/-- A group value or alphabet index, 5 bits, 0 to 31 (R5 `GRP`). -/
abbrev Group := BitVec 5

/-- A command word, 12 bits (R6 `CMDW`, 30_encoding.md R61). -/
abbrev CmdWord := BitVec 12

/-- A response word, 12 bits (R6 `RSPW`, 30_encoding.md R70). -/
abbrev RspWord := BitVec 12

end Sys2Proof
end

