-- ==== Sys2Proof/Syntax.lean ====
section
/-! DEFINITION. The six commands of the block, one constructor per row of spec/opcode_table.json (spec/30_encoding.md R62). -/

namespace Sys2Proof

/-- A command. An operand is the `data` field as an unsigned 8-bit number, any value (R63). -/
inductive Instr where
  /-- `CFG.SYM s`: offer the next alphabet symbol (R110). -/
  | cfgSym (s : Symbol)
  /-- `CFG.COMMIT`: end configuration, validate, lock (R112). -/
  | cfgCommit
  /-- `ENC.PUT b`: give the encoder the next message byte (R120). -/
  | encPut (b : Byte)
  /-- `ENC.END`: end of message, flush and close the token (R121). -/
  | encEnd
  /-- `DEC.PUT s`: give the decoder the next token symbol (R130). -/
  | decPut (s : Symbol)
  /-- `DEC.END`: end of token, drop slack and report (R132). -/
  | decEnd
deriving DecidableEq, Repr

/-- The commands of the encoder lane. -/
def Instr.isEncoder : Instr → Bool
  | .encPut _ => true
  | .encEnd => true
  | .cfgSym _ => false
  | .cfgCommit => false
  | .decPut _ => false
  | .decEnd => false

/-- The commands of the decoder lane. -/
def Instr.isDecoder : Instr → Bool
  | .decPut _ => true
  | .decEnd => true
  | .cfgSym _ => false
  | .cfgCommit => false
  | .encPut _ => false
  | .encEnd => false

end Sys2Proof
end

