-- ==== Sys2Proof/WellFormed.lean ====
section
/-! DEFINITION. Which 12-bit words are commands: the (match, mask) pairs of spec/30_encoding.md R62. The spec's word "well-formed"
is about words: an operand is any 8-bit value (R63) and `Instr` types it so, hence every term of `Instr` is well-formed and the
check stands on the command word, where a word can be ill-formed (R65). -/

namespace Sys2Proof

/-- One row of the opcode map R62. -/
structure Row where
  mnemonic : String
  pattern : CmdWord
  mask : CmdWord
deriving DecidableEq, Repr

/-- The row of an instruction in the opcode map R62. -/
def Instr.row : Instr → Row
  | .cfgSym _ => ⟨"CFG.SYM", 0x100, 0xF00⟩
  | .cfgCommit => ⟨"CFG.COMMIT", 0x200, 0xFFF⟩
  | .encPut _ => ⟨"ENC.PUT", 0x300, 0xF00⟩
  | .encEnd => ⟨"ENC.END", 0x400, 0xFFF⟩
  | .decPut _ => ⟨"DEC.PUT", 0x500, 0xF00⟩
  | .decEnd => ⟨"DEC.END", 0x600, 0xFFF⟩

/-- The opcode map R62. -/
def opcodeMap : List Row :=
  [Instr.row (.cfgSym 0), Instr.row .cfgCommit, Instr.row (.encPut 0),
   Instr.row .encEnd, Instr.row (.decPut 0), Instr.row .decEnd]

/-- A word belongs to a row exactly when `(cmd & mask) = match` (R62). -/
def Row.covers (r : Row) (w : CmdWord) : Bool := w &&& r.mask = r.pattern

/-- A word is a command when some row covers it; every other word is reserved (R65). -/
def wellFormedWord (w : CmdWord) : Bool := opcodeMap.any (·.covers w)

end Sys2Proof
end

