-- ==== Sys2Proof/Decode.lean ====
section
/-! DEFINITION. The command decoder and encoder (spec/30_encoding.md R61 to R66). `decodeWord` is the first half of `decode_cmd`
(R66); the mode check, its second half, is `Machine.decodeCmd`. -/

namespace Sys2Proof

/-- `op = cmd[11:8]` (R61). -/
def opField (w : CmdWord) : BitVec 4 := w.extractLsb' 8 4

/-- `data = cmd[7:0]` (R61), the operand, unsigned and unchanged (R63). -/
def dataField (w : CmdWord) : BitVec 8 := w.extractLsb' 0 8

/-- The command a 12-bit word encodes, none for a reserved word (R62, R65, R66). -/
def decodeWord (w : CmdWord) : Option Instr :=
  match (opField w).toNat with
  | 1 => some (.cfgSym (dataField w))
  | 2 => if dataField w = 0 then some .cfgCommit else none
  | 3 => some (.encPut (dataField w))
  | 4 => if dataField w = 0 then some .encEnd else none
  | 5 => some (.decPut (dataField w))
  | 6 => if dataField w = 0 then some .decEnd else none
  | _ => none

/-- A command word from its two fields (R61). -/
def wordOf (op : BitVec 4) (data : BitVec 8) : CmdWord := op ++ data

/-- The word of a command (R62). -/
def encode : Instr → CmdWord
  | .cfgSym s => wordOf 0x1 s
  | .cfgCommit => wordOf 0x2 0
  | .encPut b => wordOf 0x3 b
  | .encEnd => wordOf 0x4 0
  | .decPut s => wordOf 0x5 s
  | .decEnd => wordOf 0x6 0

/-- The decoder as the host asks it. `CMD` carries one 12-bit word and no second word exists (R61, R67), so a number that does not
fit 12 bits is no command. `_nbits` is not used: the bits of `w` above it are 0. -/
def decodeTableWord (_nbits w : Nat) : Option Instr :=
  if w < 2 ^ 12 then decodeWord (BitVec.ofNat 12 w) else none

end Sys2Proof
end

