-- ==== Sys2Proof/Config.lean ====
section
/-! DEFINITION. The constants of spec/00_scope.md R5 and R6. `NSYM` = 32, `GRP` = 5, `BYTE` = 8, `SYMW` = 8, `CMDW` = 12 and
`RSPW` = 12 are the widths of the types in Word.lean and State.lean; `NLANE` = 2 is the pair of lanes of State;
`VALIDATE_ALPHABET` = true is the check `validAlphabet` of Machine/Configure.lean; there is no length bound. The spec leaves no
value open for an instruction's result, so there is no opaque constant here. -/

namespace Sys2Proof.Config

/-- `DEFAULT_ALPHABET` (R5), as the codes of the table of 10_state.md R22: the ASCII codes of
`1bcd2fgh3jklmn4pqrstAvwxyz567890`, index 0 first. -/
def defaultAlphabet : Vector Symbol 32 :=
  #v[0x31, 0x62, 0x63, 0x64, 0x32, 0x66, 0x67, 0x68,
     0x33, 0x6A, 0x6B, 0x6C, 0x6D, 0x6E, 0x34, 0x70,
     0x71, 0x72, 0x73, 0x74, 0x41, 0x76, 0x77, 0x78,
     0x79, 0x7A, 0x35, 0x36, 0x37, 0x38, 0x39, 0x30]

end Sys2Proof.Config
end

