-- ==== Sys2Proof/Machine/State.lean ====
section
/-! DEFINITION. The block's state record (spec/10_state.md section 1), with the two port lists beside it, and its reset value. -/

namespace Sys2Proof.Machine

/-- The operating mode `MODE` (R20). The encodable value 3 never occurs and is unrepresentable here (U11). -/
inductive Mode where
  | config
  | ready
  | failed
deriving DecidableEq, Repr

/-- One entry of the reverse table: `valid` (1 bit) and `idx` (5 bits) (R23). -/
structure RidxEntry where
  valid : Bool
  idx : Group
deriving DecidableEq, Repr

/-- What the host can do between two steps that changes the block: send a command word on `CMD`, or assert `RESET`
(30_encoding.md R60, 70_reset_and_hazards.md R170). -/
inductive Input where
  | cmd (w : CmdWord)
  | reset
deriving DecidableEq, Repr

/-- The state: the nine elements of 10_state.md section 1, then the two ports as data. -/
structure State where
  /-- `MODE` (R20). -/
  mode : Mode
  /-- `CFGCNT`, 6 bits, legal 0 to 33 (R21). -/
  cfgcnt : BitVec 6
  /-- `ALPHA[0..31]`, the forward table `FWD` (R22, R40). -/
  alpha : Vector Symbol 32
  /-- `RIDX[0..255]`, the reverse table `REV` (R23, R40). -/
  ridx : Vector RidxEntry 256
  /-- `EACC`, 4 bits (R24). -/
  eacc : BitVec 4
  /-- `ECNT`, 3 bits, legal 0 to 4 (R24). -/
  ecnt : BitVec 3
  /-- `DACC`, 7 bits (R25). -/
  dacc : BitVec 7
  /-- `DCNT`, 3 bits (R25). -/
  dcnt : BitVec 3
  /-- `DERR`, the only flag (R26). -/
  derr : Bool
  /-- The MODEL's own field: the port events the block has not taken yet, oldest first (R8, R60; assumption 1). -/
  inp : List Input
  /-- The MODEL's own field: the response log, oldest word first (R8, R60, R70; assumption 1). -/
  rsp : List RspWord
deriving DecidableEq, Repr

/-- The state right after reset (R32, R170). The spec leaves `RIDX` unspecified and unobservable (R23, U7); the model holds all
entries invalid (DESIGN CHOICE, assumption 2). Nothing has been sent and nothing answered. -/
def State.reset : State where
  mode := .config
  cfgcnt := 0
  alpha := Config.defaultAlphabet
  ridx := Vector.replicate 256 ⟨false, 0⟩
  eacc := 0
  ecnt := 0
  dacc := 0
  dcnt := 0
  derr := false
  inp := []
  rsp := []

/-- The block has no fault that stops it: in every reachable state every word has a defined step (70_reset_and_hazards.md R190,
93_implementation_defined.md section 1). The type has no constructor. -/
inductive Fault where
deriving DecidableEq, Repr

/-- Why a step has no meaning. -/
inductive Refusal where
  /-- Raised only by an arm of `exec` for an instruction without a meaning; no arm does. Safe. -/
  | notModelled (mnemonic : String)
  /-- Raised by `CFG.SYM` and `CFG.COMMIT` in `CONFIG` when `CFGCNT` is above 33, which no rule writes (U11: `refuse`). Safe. -/
  | cfgcntOutOfRange
  /-- Raised by `ENC.PUT` and `ENC.END` in `READY` when `ECNT > 4` or `EACC >= 2^ECNT`, which no rule writes (U11). Safe. -/
  | encoderResidualOutOfRange
  /-- Raised by `DEC.PUT` of a found symbol in `READY` when `DACC >= 2^DCNT`, which no rule writes (U11). Safe. -/
  | decoderResidualOutOfRange
deriving DecidableEq, Repr

end Sys2Proof.Machine
end

