-- ==== Sys2Proof/Machine/Flags.lean ====
section
/-! DEFINITION. The block's one flag `DERR` (spec/10_state.md R26) and its one status register, the `STATUS` view (R31). The block
has no condition codes (R26). -/

namespace Sys2Proof.Machine

/-- `DERR <- 1` (R26, R130). -/
def State.setDerr (s : State) : State := { s with derr := true }

/-- `DERR <- 0` (R26, R132). -/
def State.clearDerr (s : State) : State := { s with derr := false }

/-- The 2-bit encoding of `MODE` (R20). -/
def Mode.bits : Mode → BitVec 2
  | .config => 0
  | .ready => 1
  | .failed => 2

/-- `STATUS = MODE | DERR<<2 | ECNT<<3 | DCNT<<6 | CFGCNT<<9` (R31): a 16-bit read-only view, bit 15 always 0. -/
def State.status (s : State) : BitVec 16 :=
  s.mode.bits.setWidth 16 ||| ((BitVec.ofBool s.derr).setWidth 16 <<< 2) ||| (s.ecnt.setWidth 16 <<< 3)
    ||| (s.dcnt.setWidth 16 <<< 6) ||| (s.cfgcnt.setWidth 16 <<< 9)

end Sys2Proof.Machine
end

