-- ==== Sys2Proof/Machine/Response.lean ====
section
/-! DEFINITION. Status codes and response words (spec/30_encoding.md R70 to R72). -/

namespace Sys2Proof.Machine

/-- The status and fault codes in use (R72). -/
inductive Status where
  | ok
  | decodeSymbolNotFound
  | invalidAlphabet
  | illegalCommand
deriving DecidableEq, Repr

/-- The 8-bit code of a status (R72). -/
def Status.code : Status → BitVec 8
  | .ok => 0x00
  | .decodeSymbolNotFound => 0x01
  | .invalidAlphabet => 0x02
  | .illegalCommand => 0x03

/-- The six kinds of response word (R71). -/
inductive Response where
  /-- `CDONE(st)`: configuration ended. -/
  | cdone (st : Status)
  /-- `ESYM(s)`: the next symbol of the token being produced. -/
  | esym (s : Symbol)
  /-- `EDONE(st)`: the token is complete. -/
  | edone (st : Status)
  /-- `DBYTE(b)`: the next byte of the message being recovered. -/
  | dbyte (b : Byte)
  /-- `DDONE(st)`: the message is complete, or the decode failed. -/
  | ddone (st : Status)
  /-- `FAULT(code)`: the word was refused. -/
  | fault (code : Status)
deriving DecidableEq, Repr

/-- `kind`, bits 11:8 of a response word (R70, R71). -/
def Response.kind : Response → BitVec 4
  | .cdone _ => 0x2
  | .esym _ => 0x3
  | .edone _ => 0x4
  | .dbyte _ => 0x5
  | .ddone _ => 0x6
  | .fault _ => 0xF

/-- `data`, bits 7:0 of a response word (R70, R71). -/
def Response.data : Response → BitVec 8
  | .cdone st => st.code
  | .esym s => s
  | .edone st => st.code
  | .dbyte b => b
  | .ddone st => st.code
  | .fault code => code.code

/-- The 12-bit word of a response (R70). -/
def Response.word (r : Response) : RspWord := r.kind ++ r.data

/-- `kind` as the host reads it from a word (R70). -/
def kindField (w : RspWord) : BitVec 4 := w.extractLsb' 8 4

/-- `data` as the host reads it from a word (R70). -/
def rspData (w : RspWord) : BitVec 8 := w.extractLsb' 0 8

/-- `emit` of one or more responses in order: they are appended to the log (R10, R48 (b)). -/
def State.emits (s : State) (rs : List Response) : State :=
  { s with rsp := s.rsp ++ rs.map Response.word }

/-- `emit K(d)` (R10). -/
def State.emit (s : State) (r : Response) : State := s.emits [r]

end Sys2Proof.Machine
end

