-- ==== Sys2Proof/Machine/Ops.lean ====
section
/-! DEFINITION. The operations every meaning is built from: look-up table accesses, mode legality, raising an event and the return
from one, reset. -/

namespace Sys2Proof.Machine

/-! ### The two look-up tables (spec/20_memory.md R40, R46; 00_scope.md R10) -/

/-- `MemRead(FWD+g, 1)`: the symbol code for group value `g` (R90). Every group value is in range. -/
def State.readFwd (s : State) (g : Group) : Symbol := s.alpha[g.toNat]'g.isLt

/-- `MemRead(REV+c, 1)`: the reverse table's entry for a symbol code. Every code is in range. -/
def State.readRev (s : State) (c : Symbol) : RidxEntry := s.ridx[c.toNat]'c.isLt

/-- `MemWrite(FWD+k, 1, c)` (R110). -/
def State.writeFwd (s : State) (k : Nat) (h : k < 32) (c : Symbol) : State := { s with alpha := s.alpha.set k c h }

/-- The index `i` with `ALPHA[i] = c`, if there is one; unique when the entries are pairwise distinct (R91, R112). -/
def indexOf (alpha : Vector Symbol 32) (c : Symbol) : Option Group :=
  (alpha.toList.idxOf? c).map (BitVec.ofNat 5)

/-- The reverse table that `CFG.COMMIT` builds (R23, R112): `(1, i)` where `ALPHA[i] = c`, `(0, 0)` where no entry equals `c`. -/
def reverseTable (alpha : Vector Symbol 32) : Vector RidxEntry 256 :=
  Vector.ofFn fun c : Fin 256 =>
    match indexOf alpha (BitVec.ofNat 8 c) with
    | some i => ⟨true, i⟩
    | none => ⟨false, 0⟩

/-- `MemWrite(REV+c, 1, ...)` for all 256 codes `c`, in one step (R112). -/
def State.writeRevAll (s : State) : State := { s with ridx := reverseTable s.alpha }

/-- `Rev(ALPHA, c)` as the block looks it up: `Some RIDX[c].idx` when the entry is valid, else `None`, which is no index (R91). -/
def State.lookupRev (s : State) (c : Symbol) : Option Group :=
  if (s.readRev c).valid then some (s.readRev c).idx else none

/-! ### Events: entry and return (spec/60_exceptions.md) -/

/-- The three events (R140). -/
inductive Event where
  | decodeSymbolNotFound
  | invalidAlphabet
  | illegalCommand
deriving DecidableEq, Repr

/-- Raising an event: all it changes and all it reports in the raising step (R140, R146). It saves nothing and transfers no control:
`DecodeSymbolNotFound` sets `DERR` (R141), `InvalidAlphabet` sets `MODE` to `FAILED` and emits `CDONE(0x02)` (R143),
`IllegalCommand` emits `FAULT(0x03)` and writes nothing (R142). -/
def State.raise (s : State) : Event → State
  | .decodeSymbolNotFound => s.setDerr
  | .invalidAlphabet => { s with mode := .failed }.emit (.cdone .invalidAlphabet)
  | .illegalCommand => s.emit (.fault .illegalCommand)

/-- The return from `DecodeSymbolNotFound` (R147): the closing `DEC.END` empties the lane and clears `DERR` (R132). After
`IllegalCommand` there is nothing to undo, and `InvalidAlphabet` is left only by `State.resetBlock`. -/
def State.clearDecoder (s : State) : State := { s with dacc := 0, dcnt := 0 }.clearDerr

/-- Reset (70_reset_and_hazards.md R170): every element takes its reset value, no response is emitted, and the words already emitted
stay in the log. Pending port events stay pending. -/
def State.resetBlock (s : State) : State := { State.reset with inp := s.inp, rsp := s.rsp }

/-! ### Legality by mode (spec/30_encoding.md R64, R66) -/

/-- The table of R64: the `CFG` commands in `CONFIG`, the data commands in `READY`, none in `FAILED`. -/
def legalIn (i : Instr) (m : Mode) : Bool :=
  match i with
  | .cfgSym _ => m == .config
  | .cfgCommit => m == .config
  | .encPut _ => m == .ready
  | .encEnd => m == .ready
  | .decPut _ => m == .ready
  | .decEnd => m == .ready

/-- `decode_cmd(cmd, MODE)` of R66: the legal command a word is in this mode, none for "refused". -/
def decodeCmd (w : CmdWord) (m : Mode) : Option Instr :=
  (decodeWord w).filter (legalIn · m)

/-- The check that comes before any other work of a command (R145): a command not legal in the current mode raises
`IllegalCommand` (R142) and nothing else of it happens. -/
def State.whenLegal (s : State) (i : Instr) (effect : Host.Outcome State Fault Refusal) : Host.Outcome State Fault Refusal :=
  if legalIn i s.mode then effect else .next (s.raise .illegalCommand)

/-! ### Register values that no rule writes (spec/93_implementation_defined.md U11) -/

/-- `CFGCNT` is 0 to 33 (R21). -/
abbrev State.CfgcntLegal (s : State) : Prop := s.cfgcnt.toNat ≤ 33

/-- `ECNT` is 0 to 4 and `EACC < 2^ECNT` (R24). -/
abbrev State.EncoderLegal (s : State) : Prop := s.ecnt.toNat ≤ 4 ∧ s.eacc.toNat < 2 ^ s.ecnt.toNat

/-- `DACC < 2^DCNT` (R25). -/
abbrev State.DecoderLegal (s : State) : Prop := s.dacc.toNat < 2 ^ s.dcnt.toNat

end Sys2Proof.Machine
end

