-- ==== Sys2Proof/Machine/Configure.lean ====
section
/-! DEFINITION. The configuration commands `CFG.SYM` and `CFG.COMMIT` (spec/41_config_commands.md). -/

namespace Sys2Proof.Machine

/-- `ValidAlphabet(CFGCNT, ALPHA)` (R111). -/
def validAlphabet (cfgcnt : BitVec 6) (alpha : Vector Symbol 32) : Bool :=
  (cfgcnt == 0 || cfgcnt == 32) && decide alpha.toList.Nodup

/-- `if CFGCNT < 32 then ALPHA[CFGCNT] <- s` (R110). -/
def State.offerSymbol (s : State) (c : Symbol) : State :=
  if h : s.cfgcnt.toNat < 32 then s.writeFwd s.cfgcnt.toNat h c else s

/-- `CFG.SYM s` (R110). -/
def execCfgSym (c : Symbol) (s : State) : Host.Outcome State Fault Refusal :=
  s.whenLegal (.cfgSym c) <|
    if s.CfgcntLegal then
      if s.cfgcnt.toNat < 33 then .next { s.offerSymbol c with cfgcnt := s.cfgcnt + 1 } else .next s
    else .refused .cfgcntOutOfRange

/-- `CFG.COMMIT` (R112). -/
def execCfgCommit (s : State) : Host.Outcome State Fault Refusal :=
  s.whenLegal .cfgCommit <|
    if s.CfgcntLegal then
      if validAlphabet s.cfgcnt s.alpha then .next ({ s.writeRevAll with mode := .ready }.emit (.cdone .ok))
      else .next (s.raise .invalidAlphabet)
    else .refused .cfgcntOutOfRange

end Sys2Proof.Machine
end

