-- ==== Sys2Proof/Machine/Operands.lean ====
section
/-! DEFINITION. The lanes' bit buffer: append the operand's bits, take out fixed-width groups, oldest bits first. The locals `acc` and
`cnt` of spec/42_encode_commands.md R120 and spec/43_decode_commands.md R130 are unbounded naturals here (00_scope.md R9) and are
narrowed to the registers only at the end of the step. -/

namespace Sys2Proof.Machine

/-- `trunc_N(v)` = `v mod 2^N`, the same as `v & (2^N - 1)` (00_scope.md R10). -/
def trunc (n v : Nat) : Nat := v % 2 ^ n

/-- `(acc << n) | v`: the residual bits, then `n` new bits (R120, R130). -/
def appendBits (acc n v : Nat) : Nat := (acc <<< n) ||| v

/-- What a lane's bit buffer yields: the groups taken out, oldest first, and the bits left over. -/
structure Drained where
  groups : List Nat
  acc : Nat
  cnt : Nat
deriving DecidableEq, Repr

/-- At most `rounds` times: while `cnt >= width`, take the `width` oldest bits out of `acc`, which holds `cnt` bits
(the loop of R120 with width 5, the conditional of R130 with width 8). -/
def drain (width : Nat) : (rounds acc cnt : Nat) → Drained
  | 0, acc, cnt => ⟨[], acc, cnt⟩
  | rounds + 1, acc, cnt =>
    if width ≤ cnt then
      let rest := drain width rounds (trunc (cnt - width) acc) (cnt - width)
      { rest with groups := trunc width (acc >>> (cnt - width)) :: rest.groups }
    else ⟨[], acc, cnt⟩

end Sys2Proof.Machine
end

