-- ==== Sys2Proof/Machine/DecoderLane.lean ====
section
/-! DEFINITION. The decoder commands `DEC.PUT` and `DEC.END` (spec/43_decode_commands.md). -/

namespace Sys2Proof.Machine

/-- `DACC <- acc; DCNT <- cnt` (R130). -/
def State.setDecoder (s : State) (acc cnt : Nat) : State :=
  { s with dacc := BitVec.ofNat 7 acc, dcnt := BitVec.ofNat 3 cnt }

/-- The residual and the index's 5 bits, with a byte taken out when there are 8 bits: the conditional of R130. -/
def State.decoderBuffer (s : State) (i : Group) : Drained :=
  drain 8 1 (appendBits s.dacc.toNat 5 i.toNat) (s.dcnt.toNat + 5)

/-- `emit DBYTE(v)` (R130). -/
def byteOf (v : Nat) : Response := .dbyte (BitVec.ofNat 8 v)

/-- `DEC.PUT s` (R130): ignored while `DERR` = 1; a foreign symbol raises `DecodeSymbolNotFound` and is no index 0; a found symbol
adds its index's 5 bits and emits a byte when 8 bits are there. -/
def execDecPut (c : Symbol) (s : State) : Host.Outcome State Fault Refusal :=
  s.whenLegal (.decPut c) <|
    if s.derr then .next s
    else
      match s.lookupRev c with
      | none => .next (s.raise .decodeSymbolNotFound)
      | some i =>
        if s.DecoderLegal then
          let d := s.decoderBuffer i
          .next ((s.setDecoder d.acc d.cnt).emits (d.groups.map byteOf))
        else .refused .decoderResidualOutOfRange

/-- `DEC.END` (R132): report the outcome, discard the slack, clear `DERR`. -/
def execDecEnd (s : State) : Host.Outcome State Fault Refusal :=
  s.whenLegal .decEnd <|
    .next (s.clearDecoder.emit (.ddone (if s.derr then .decodeSymbolNotFound else .ok)))

end Sys2Proof.Machine
end

