-- ==== Sys2Proof/Machine/EncoderLane.lean ====
section
/-! DEFINITION. The encoder commands `ENC.PUT` and `ENC.END` (spec/42_encode_commands.md). -/

namespace Sys2Proof.Machine

/-- `emit ESYM(Fwd(ALPHA, g))` of one group value (R120, R121). -/
def State.symbolOf (s : State) (g : Nat) : Response := .esym (s.readFwd (BitVec.ofNat 5 g))

/-- `EACC <- acc; ECNT <- cnt` (R120, R121). -/
def State.setEncoder (s : State) (acc cnt : Nat) : State :=
  { s with eacc := BitVec.ofNat 4 acc, ecnt := BitVec.ofNat 3 cnt }

/-- The residual and the new byte's 8 bits, with the 5-bit groups taken out: the loop of R120, which runs once or twice. -/
def State.encoderBuffer (s : State) (b : Byte) : Drained :=
  drain 5 2 (appendBits s.eacc.toNat 8 b.toNat) (s.ecnt.toNat + 8)

/-- `ENC.PUT b` (R120). -/
def execEncPut (b : Byte) (s : State) : Host.Outcome State Fault Refusal :=
  s.whenLegal (.encPut b) <|
    if s.EncoderLegal then
      let d := s.encoderBuffer b
      .next ((s.setEncoder d.acc d.cnt).emits (d.groups.map s.symbolOf))
    else .refused .encoderResidualOutOfRange

/-- The last group of a token: the residual bits, then `5 - ECNT` zero bits; no group when there is no residual bit (R121). -/
def State.paddedGroup (s : State) : List Nat :=
  if 0 < s.ecnt.toNat then [trunc 5 (s.eacc.toNat <<< (5 - s.ecnt.toNat))] else []

/-- `ENC.END` (R121). -/
def execEncEnd (s : State) : Host.Outcome State Fault Refusal :=
  s.whenLegal .encEnd <|
    if s.EncoderLegal then
      .next ((s.setEncoder 0 0).emits (s.paddedGroup.map s.symbolOf ++ [.edone .ok]))
    else .refused .encoderResidualOutOfRange

end Sys2Proof.Machine
end

