-- ==== Sys2Proof/Machine/Dispatch.lean ====
section
/-! DEFINITION. Every command's meaning, by constructor. -/

namespace Sys2Proof.Machine

def exec (i : Instr) (s : State) : Host.Outcome State Fault Refusal :=
  match i with
  | .cfgSym c => Sys2Proof.Machine.execCfgSym c s
  | .cfgCommit => Sys2Proof.Machine.execCfgCommit s
  | .encPut b => Sys2Proof.Machine.execEncPut b s
  | .encEnd => Sys2Proof.Machine.execEncEnd s
  | .decPut c => Sys2Proof.Machine.execDecPut c s
  | .decEnd => Sys2Proof.Machine.execDecEnd s

end Sys2Proof.Machine
end

