-- ==== Sys2Proof/Machine/Fetch.lean ====
section
/-! DEFINITION. How the block takes what the host puts on its ports. There is no stored program (spec/10_state.md R27): the oldest
pending port event is the next thing that happens (20_memory.md R48). -/

namespace Sys2Proof.Machine

/-- What a step finds on the ports. -/
inductive Fetched where
  /-- Nothing is pending: the block is idle (60_exceptions.md R165). -/
  | idle
  /-- `RESET` is asserted. -/
  | reset
  /-- A command word that is one of the six commands. -/
  | command (i : Instr)
  /-- A reserved word. -/
  | reserved
deriving DecidableEq, Repr

/-- The oldest pending port event, decoded. -/
def State.fetch (s : State) : Fetched :=
  match s.inp with
  | [] => .idle
  | .reset :: _ => .reset
  | .cmd w :: _ =>
    match decodeWord w with
    | some i => .command i
    | none => .reserved

/-- The state with the oldest pending port event taken off. -/
def State.consume (s : State) : State := { s with inp := s.inp.tail }

/-- The host puts port events before all pending ones. -/
def State.push (s : State) (es : List Input) : State := { s with inp := es ++ s.inp }

end Sys2Proof.Machine
end

