-- ==== Sys2Proof/Machine/Step.lean ====
section
/-! DEFINITION. One step of the block (spec/00_scope.md R7): it takes the oldest pending port event. A reserved word raises
`IllegalCommand` (30_encoding.md R65); with nothing pending the block holds its state (60_exceptions.md R150, R165). -/

namespace Sys2Proof.Machine

/-- One atomic step (R7, R48). -/
def step (s : State) : Host.Outcome State Fault Refusal :=
  match s.fetch with
  | .idle => .next s
  | .reset => .next s.consume.resetBlock
  | .command i => exec i s.consume
  | .reserved => .next (s.consume.raise .illegalCommand)

/-- The command word `w` put on `CMD` before all pending port events (assumption 1). `CMD` is 12 bits wide and has no second word
(30_encoding.md R61), so `_nbits` is not used. -/
def State.withFetchWord (s : State) (_nbits w : Nat) : State := s.push [.cmd (BitVec.ofNat 12 w)]

end Sys2Proof.Machine
end

