-- ==== Sys2Proof/Machine/Assembler.lean ====
section
/-! DEFINITION. The notation for command streams: pseudo-instructions (spec/30_encoding.md R76) and command lines (R75). What R75
leaves open of the notation is fixed in assumption 6. -/

namespace Sys2Proof.Machine

/-- The pseudo-instructions (R76). -/
inductive Pseudo where
  /-- `ALPHABET "..."`: construction with an alphabet; with no symbol, the default alphabet. -/
  | alphabet (cs : List Symbol)
  /-- `ENCODE ...`: one call of `encode`. -/
  | encode (M : List Byte)
  /-- `DECODE ...`: one call of `decode`. -/
  | decode (T : List Symbol)
deriving DecidableEq, Repr

/-- The commands a pseudo-instruction expands to (R76). -/
def Pseudo.expand : Pseudo → List Instr
  | .alphabet cs => cs.map .cfgSym ++ [.cfgCommit]
  | .encode M => M.map .encPut ++ [.encEnd]
  | .decode T => T.map .decPut ++ [.decEnd]

/-- The words of a pseudo-instruction. -/
def Pseudo.words (p : Pseudo) : List CmdWord := p.expand.map Sys2Proof.encode

/-- What one line of the notation says (R75): nothing, `.reset`, one command, or a pseudo-instruction. -/
inductive Line where
  | blank
  | reset
  | instr (i : Instr)
  | pseudo (p : Pseudo)
deriving DecidableEq, Repr

/-- What the host does for a line: the directive `.reset` is no command word but an assertion of `RESET` (R75). -/
def Line.events : Line → List Input
  | .blank => []
  | .reset => [.reset]
  | .instr i => [.cmd (Sys2Proof.encode i)]
  | .pseudo p => p.words.map .cmd

/-- The pieces of a line: a bare word, one quoted character, a quoted text. -/
inductive Token where
  | word (cs : List Char)
  | char (c : Char)
  | text (cs : List Char)
deriving DecidableEq, Repr

/-- Where the scanner stands: outside quotes with the word read so far, or inside a quoted text; both reversed. -/
inductive Scan where
  | outside (word : List Char)
  | inText (text : List Char)
deriving DecidableEq, Repr

/-- The bare word read so far, if any. -/
def endWord : List Char → List Token
  | [] => []
  | c :: cs => [.word (c :: cs).reverse]

/-- The tokens of a line: `;` starts a comment outside quotes, blanks separate, an unclosed quote is no line. DESIGN CHOICE
(assumption 6): a quote that opens an operand or a text ends the word before it and starts a new part with no blank before it, and
after a closing quote the next part needs none, so `ENC.PUT'A'` is read as `ENC.PUT 'A'`; R75 is silent on it. -/
def scan : Scan → List Char → Option (List Token)
  | .outside w, [] => some (endWord w)
  | .inText _, [] => none
  | .inText t, '"' :: cs => (scan (.outside []) cs).map (.text t.reverse :: ·)
  | .inText t, c :: cs => scan (.inText (c :: t)) cs
  | .outside w, ';' :: _ => some (endWord w)
  | .outside w, '\'' :: c :: '\'' :: cs => (scan (.outside []) cs).map (endWord w ++ .char c :: ·)
  | .outside w, '"' :: cs => (scan (.inText []) cs).map (endWord w ++ ·)
  | .outside w, c :: cs =>
    if c = ' ' ∨ c = '\t' then (scan (.outside []) cs).map (endWord w ++ ·) else scan (.outside (c :: w)) cs

/-- The value of a digit, in either case. -/
def digitValue (c : Char) : Option Nat :=
  if '0' ≤ c ∧ c ≤ '9' then some (c.toNat - 48)
  else if 'A' ≤ c ∧ c ≤ 'F' then some (c.toNat - 55)
  else if 'a' ≤ c ∧ c ≤ 'f' then some (c.toNat - 87)
  else none

/-- A nonempty row of digits in a base. -/
def digitsValue (base : Nat) : List Char → Option Nat
  | [] => none
  | ds => ds.foldlM (fun v c => (digitValue c).bind fun d => if d < base then some (v * base + d) else none) 0

/-- A number: decimal, `0x..` hexadecimal or `0b..` binary (R75 in the notation of 00_scope.md R9). -/
def numberOf : List Char → Option Nat
  | '0' :: 'x' :: ds => digitsValue 16 ds
  | '0' :: 'b' :: ds => digitsValue 2 ds
  | ds => digitsValue 10 ds

/-- The ASCII code of a character (R11, R75; assumption 7). -/
def asciiCode (c : Char) : Option (BitVec 8) := if c.toNat < 128 then some (BitVec.ofNat 8 c.toNat) else none

/-- An operand: a number that fits 8 bits, or one quoted character (R75). -/
def operandOf : Token → Option (BitVec 8)
  | .word cs => (numberOf cs).bind fun n => if n < 256 then some (BitVec.ofNat 8 n) else none
  | .char c => asciiCode c
  | .text _ => none

/-- The operands of `ENCODE` and `DECODE`: one text, or one or more single operands (R76). -/
def operandsOf : List Token → Option (List (BitVec 8))
  | [] => none
  | [.text cs] => cs.mapM asciiCode
  | ts => ts.mapM operandOf

/-- A line that takes no operand. -/
def alone (l : Line) : List Token → Option Line
  | [] => some l
  | _ :: _ => none

/-- A command that takes exactly one operand. -/
def withOperand (f : BitVec 8 → Instr) : List Token → Option Line
  | [t] => (operandOf t).map fun d => .instr (f d)
  | _ => none

/-- The operands of `ALPHABET`: none, or one text (R76). -/
def alphabetLine : List Token → Option Line
  | [] => some (.pseudo (.alphabet []))
  | [.text cs] => (cs.mapM asciiCode).map fun s => .pseudo (.alphabet s)
  | _ => none

/-- The line that a mnemonic and its operands say (R75, R76). -/
def lineOf (m : List Char) (ops : List Token) : Option Line :=
  if m = ".reset".toList then alone .reset ops
  else if m = "CFG.SYM".toList then withOperand .cfgSym ops
  else if m = "CFG.COMMIT".toList then alone (.instr .cfgCommit) ops
  else if m = "ENC.PUT".toList then withOperand .encPut ops
  else if m = "ENC.END".toList then alone (.instr .encEnd) ops
  else if m = "DEC.PUT".toList then withOperand .decPut ops
  else if m = "DEC.END".toList then alone (.instr .decEnd) ops
  else if m = "ALPHABET".toList then alphabetLine ops
  else if m = "ENCODE".toList then (operandsOf ops).map fun M => .pseudo (.encode M)
  else if m = "DECODE".toList then (operandsOf ops).map fun T => .pseudo (.decode T)
  else none

/-- One line of the notation, none where it is not one (R75). -/
def parseLine (cs : List Char) : Option Line :=
  match scan (.outside []) cs with
  | some [] => some .blank
  | some (.word m :: ops) => lineOf m ops
  | some (.char _ :: _) => none
  | some (.text _ :: _) => none
  | none => none

/-- The port events of a command stream written one line after another (R75). -/
def assemble (lines : List (List Char)) : Option (List Input) :=
  (lines.mapM parseLine).map fun ls => ls.flatMap Line.events

/-- A digit of base 16, in capitals. -/
def hexDigit (d : Nat) : Char := if d < 10 then Char.ofNat (d + 48) else Char.ofNat (d + 55)

/-- A word written as three hexadecimal digits (R75). -/
def hexWord (w : BitVec 12) : List Char :=
  [hexDigit (w.toNat / 256), hexDigit (w.toNat / 16 % 16), hexDigit (w.toNat % 16)]

/-- An operand written as `0x` and two hexadecimal digits (R75). -/
def hexOperand (d : BitVec 8) : List Char := ['0', 'x', hexDigit (d.toNat / 16), hexDigit (d.toNat % 16)]

/-- The line that writes a command, its operand as a number (R75). -/
def listing : Instr → List Char
  | .cfgSym s => "CFG.SYM ".toList ++ hexOperand s
  | .cfgCommit => "CFG.COMMIT".toList
  | .encPut b => "ENC.PUT ".toList ++ hexOperand b
  | .encEnd => "ENC.END".toList
  | .decPut s => "DEC.PUT ".toList ++ hexOperand s
  | .decEnd => "DEC.END".toList

end Sys2Proof.Machine
end

