-- ==== Sys2Proof/Machine/Codec.lean ====
section
/-! DEFINITION. The codec's contract as pure functions (spec/40_codec_functions.md), on valid alphabets only: an alphabet that is not 32
distinct symbols cannot be written as an argument (R101, U1). -/

namespace Sys2Proof.Machine

/-- A valid alphabet: exactly 32 distinct symbols (R101). -/
structure Alphabet where
  codes : Vector Symbol 32
  distinct : codes.toList.Nodup
deriving DecidableEq, Repr

/-- `Fwd(A, i)` (R90). -/
def Alphabet.fwd (A : Alphabet) (i : Group) : Symbol := A.codes[i.toNat]'i.isLt

/-- `Rev(A, c)` (R91). -/
def Alphabet.rev (A : Alphabet) (c : Symbol) : Option Group := indexOf A.codes c

/-- The bits of a value of `w` bits, most significant first (00_scope.md R9 "MSB-first"). -/
def bitsMsb {w : Nat} (v : BitVec w) : List Bool := (List.range w).map fun k => v.getLsbD (w - 1 - k)

/-- `BitsOf8(M)`: the bit sequence of a message (20_memory.md R42). -/
def bitsOf8 (M : List Byte) : List Bool := M.flatMap bitsMsb

/-- `BitsOf5(I)`: the bit sequence of a list of indices (R42). -/
def bitsOf5 (I : List Group) : List Bool := I.flatMap bitsMsb

/-- A bit sequence as an unsigned number, first bit most significant. -/
def natOfBits (l : List Bool) : Nat := l.foldl (fun v b => 2 * v + b.toNat) 0

/-- Field `j` of a bit sequence cut into `w`-bit fields, first bit most significant (R41). -/
def fieldAt (w : Nat) (S : List Bool) (j : Nat) : BitVec w := BitVec.ofNat w (natOfBits ((S.drop (w * j)).take w))

/-- `n = ceil(8L/5)`: the symbols of a message of `L` bytes (R43). -/
def tokenLength (L : Nat) : Nat := (8 * L + 4) / 5

/-- `m = floor(5n/8)`: the bytes of a token of `n` symbols (R44). -/
def messageLength (n : Nat) : Nat := 5 * n / 8

/-- The group values of a message: its bits, zero-padded on the right to a multiple of 5, cut into 5-bit groups (R93). -/
def groupsOf (M : List Byte) : List Group :=
  let n := tokenLength M.length
  let S := bitsOf8 M ++ List.replicate (5 * n - 8 * M.length) false
  (List.range n).map (fieldAt 5 S)

/-- `Encode(A, M)` (R93). -/
def Alphabet.encode (A : Alphabet) (M : List Byte) : List Symbol := (groupsOf M).map A.fwd

/-- The bytes of a list of indices: the first `floor(5n/8)` whole bytes of its bits (R96). -/
def bytesOf (I : List Group) : List Byte := (List.range (messageLength I.length)).map (fieldAt 8 (bitsOf5 I))

/-- The result of `Decode` (R96): a message, or the error alone. -/
inductive Decoded where
  | ok (M : List Byte)
  | symbolNotFound
deriving DecidableEq, Repr

/-- `Decode(A, T)` (R96): every symbol is looked up; one foreign symbol anywhere fails the whole decode. -/
def Alphabet.decode (A : Alphabet) (T : List Symbol) : Decoded :=
  match T.mapM A.rev with
  | some I => .ok (bytesOf I)
  | none => .symbolNotFound

/-- The discarded trailing bits of a list of indices: its slack (R44). -/
def slackBits (I : List Group) : List Bool := (bitsOf5 I).drop (8 * messageLength I.length)

end Sys2Proof.Machine
end

