-- ==== Sys2Proof/Machine/Run.lean ====
section
/-! DEFINITION. Several steps in a row. -/

namespace Sys2Proof.Machine

/-- `n` steps, stopping at the first fault or refusal. -/
def run : Nat → State → Host.Outcome State Fault Refusal
  | 0, s => .next s
  | n + 1, s =>
    match step s with
    | .next t => run n t
    | .fault f => .fault f
    | .refused r => .refused r

/-- The host sends the words `ws`, and the block executes them. -/
def send (ws : List CmdWord) (s : State) : Host.Outcome State Fault Refusal :=
  run ws.length (s.push (ws.map .cmd))

/-- The response words that the state `t` has emitted since the state `s`. -/
def State.emittedSince (t s : State) : List RspWord := t.rsp.drop s.rsp.length

/-- The encoder's words of a response log: kinds 0x3 and 0x4 (30_encoding.md R71, 42_encode_commands.md R123). -/
def encoderResponses (l : List RspWord) : List RspWord := l.filter fun w => kindField w == 0x3 || kindField w == 0x4

/-- The decoder's words of a response log: kinds 0x5 and 0x6 (30_encoding.md R71, 43_decode_commands.md R135). -/
def decoderResponses (l : List RspWord) : List RspWord := l.filter fun w => kindField w == 0x5 || kindField w == 0x6

/-- The symbols the host collects from the `ESYM` words of a log (43_decode_commands.md R136). -/
def collectSymbols (l : List RspWord) : List Symbol := (l.filter fun w => kindField w == 0x3).map rspData

/-- The encoder commands among the words of a command stream, in order. -/
def encoderCommands (ws : List CmdWord) : List Instr := (ws.filterMap decodeWord).filter Instr.isEncoder

/-- The decoder commands among the words of a command stream, in order. -/
def decoderCommands (ws : List CmdWord) : List Instr := (ws.filterMap decodeWord).filter Instr.isDecoder

/-- The symbols that the `CFG.SYM` words of a command stream offer, in order. -/
def offeredSymbols (ws : List CmdWord) : List Symbol :=
  ws.filterMap fun w =>
    match decodeWord w with
    | some (.cfgSym c) => some c
    | _ => none

end Sys2Proof.Machine
end

