-- ==== Sys2Proof/Machine/Observe.lean ====
section
/-! DEFINITION. What an observer of the response log takes as the results of the calls (spec/43_decode_commands.md R133, R134;
42_encode_commands.md R124; 70_reset_and_hazards.md R172, R183, R185; the ruling C2 of 90_conflicts.md). -/

namespace Sys2Proof.Machine

/-- The closed transactions of one lane in a log, oldest first, each with the data of its words of kind `item` and the status of the
word of kind `close` that ended it. `pending` are the data of the open transaction: provisional (R183), and dropped at a `CDONE`,
kind 0x2, because a reset abandoned that transaction (R133 "or since `CFG.COMMIT`", R172). Other words are the other lane's, or
`FAULT` (R185). -/
def closedTransactions (item close : BitVec 4) (pending : List (BitVec 8)) : List RspWord → List (List (BitVec 8) × BitVec 8)
  | [] => []
  | w :: l =>
    if kindField w = item then closedTransactions item close (pending ++ [rspData w]) l
    else if kindField w = close then (pending, rspData w) :: closedTransactions item close [] l
    else if kindField w = 0x2 then closedTransactions item close [] l
    else closedTransactions item close pending l

/-- The tokens of the encode calls that a log closes, `ESYM` to `EDONE` (R124). -/
def encodeOutcomes (l : List RspWord) : List (List Symbol) := (closedTransactions 0x3 0x4 [] l).map Prod.fst

/-- The outcome of one decode call from its provisional bytes and the status of its `DDONE`, 0x00 or 0x01 (R71): the bytes, or the
error alone, the bytes void (R133, R141). -/
def decodeOutcome (provisional : List Byte) (st : BitVec 8) : Decoded :=
  if st = Status.ok.code then .ok provisional else .symbolNotFound

/-- The outcomes of the decode calls that a log closes, `DBYTE` to `DDONE`: the observation function that C2 asks for. -/
def decodeOutcomes (l : List RspWord) : List Decoded :=
  (closedTransactions 0x5 0x6 [] l).map fun p => decodeOutcome p.1 p.2

end Sys2Proof.Machine
end

