-- ==== Sys2Proof/Safety.lean ====
section
/-! DEFINITION. The terms claims use: the invariants of spec/10_state.md R28, idle lanes, and the case tables of
42_encode_commands.md R120 and 43_decode_commands.md R130, which the step functions are held against. -/

namespace Sys2Proof.Machine

/-- The entries of an alphabet are pairwise distinct: for all `i < j`, `A[i]` is not `A[j]` (R111). -/
def PairwiseDistinct (alpha : Vector Symbol 32) : Prop :=
  ∀ (i j : Nat) (hj : j < 32) (hij : i < j), alpha[i]'(by omega) ≠ alpha[j]

/-- `RIDX` is the exact inverse of `ALPHA` (R23): `(1, i)` exactly where `ALPHA[i] = c`, `(0, 0)` where no entry equals `c`. -/
structure State.RidxInverse (s : State) : Prop where
  found : ∀ (c : Symbol) (i : Group), s.readRev c = ⟨true, i⟩ ↔ s.readFwd i = c
  foreign : ∀ c : Symbol, (∀ i : Group, s.readFwd i ≠ c) → s.readRev c = ⟨false, 0⟩

/-- The encoder lane is idle (R124). -/
structure State.EncoderIdle (s : State) : Prop where
  ecnt : s.ecnt = 0
  eacc : s.eacc = 0

/-- The decoder lane is idle (R134). -/
structure State.DecoderIdle (s : State) : Prop where
  dcnt : s.dcnt = 0
  dacc : s.dacc = 0
  derr : s.derr = false

/-- The invariants (a) to (g) of R28, and the fact (R110 (a)) that makes (g) inductive: in `CONFIG` the entries not yet offered hold
the default codes. Clause (a), `MODE` is 0, 1 or 2, holds by the type of `mode`. -/
structure State.Inv (s : State) : Prop where
  cfgcnt_legal : s.CfgcntLegal
  encoder_legal : s.EncoderLegal
  decoder_legal : s.DecoderLegal
  encoder_idle : s.mode ≠ .ready → s.EncoderIdle
  decoder_idle : s.mode ≠ .ready → s.DecoderIdle
  ready_distinct : s.mode = .ready → PairwiseDistinct s.alpha
  ready_count : s.mode = .ready → s.cfgcnt = 0 ∨ s.cfgcnt = 32
  ready_inverse : s.mode = .ready → s.RidxInverse
  ready_default : s.mode = .ready → s.cfgcnt = 0 → s.alpha = Config.defaultAlphabet
  config_unwritten : s.mode = .config →
    ∀ (k : Nat) (hk : k < 32), s.cfgcnt.toNat ≤ k → s.alpha[k] = Config.defaultAlphabet[k]

/-- The case table of R120 by `ECNT` before the step, with `e = EACC` and the byte `b`: the groups emitted in order, `EACC` after,
`ECNT` after. No row for an `ECNT` above 4. -/
def encPutRow (ecnt : BitVec 3) (e : BitVec 4) (b : Byte) : Option (List Group × BitVec 4 × BitVec 3) :=
  match ecnt.toNat with
  | 0 => some ([b.extractLsb 7 3], (b.extractLsb 2 0).setWidth 4, 3)
  | 1 => some ([e.extractLsb 0 0 ++ b.extractLsb 7 4], (b.extractLsb 3 0).setWidth 4, 4)
  | 2 => some ([e.extractLsb 1 0 ++ b.extractLsb 7 5, b.extractLsb 4 0], 0, 0)
  | 3 => some ([e.extractLsb 2 0 ++ b.extractLsb 7 6, b.extractLsb 5 1], (b.extractLsb 0 0).setWidth 4, 1)
  | 4 => some ([e.extractLsb 3 0 ++ b.extractLsb 7 7, b.extractLsb 6 2], (b.extractLsb 1 0).setWidth 4, 2)
  | _ => none

/-- The case table of R130 by `DCNT` before the step, with `d = DACC` and the index `i`: the byte emitted if any, `DACC` after,
`DCNT` after. -/
def decPutRow (dcnt : BitVec 3) (d : BitVec 7) (i : Group) : List Byte × BitVec 7 × BitVec 3 :=
  match dcnt.toNat with
  | 0 => ([], i.setWidth 7, 5)
  | 1 => ([], (d.extractLsb 0 0 ++ i).setWidth 7, 6)
  | 2 => ([], d.extractLsb 1 0 ++ i, 7)
  | 3 => ([d.extractLsb 2 0 ++ i], 0, 0)
  | 4 => ([d.extractLsb 3 0 ++ i.extractLsb 4 1], (i.extractLsb 0 0).setWidth 7, 1)
  | 5 => ([d.extractLsb 4 0 ++ i.extractLsb 4 2], (i.extractLsb 1 0).setWidth 7, 2)
  | 6 => ([d.extractLsb 5 0 ++ i.extractLsb 4 3], (i.extractLsb 2 0).setWidth 7, 3)
  | _ => ([d.extractLsb 6 0 ++ i.extractLsb 4 4], (i.extractLsb 3 0).setWidth 7, 4)

/-- A token length that `Encode` can produce (00_scope.md glossary "Canonical token", 20_memory.md R44). -/
def CanonicalLength (n : Nat) : Prop := n % 8 = 0 ∨ n % 8 = 2 ∨ n % 8 = 4 ∨ n % 8 = 5 ∨ n % 8 = 7

end Sys2Proof.Machine
end

