-- ==== Sys2Proof/Certificates/Slice0/Obligations.lean ====
section
/-! DEFINITION. The statements for the provers, in the order of the spec's files. -/

open Sys2Proof Sys2Proof.Machine

/-! ## Command words: encoding, decoding, legality (spec/30_encoding.md) -/

/-- Decode and encode agree, both ways: the encoder's word is the only word that decodes to a command (R62, R66). -/
def Obligations.EveryCommandHasExactlyOneWord : Prop :=
  ∀ (w : CmdWord) (i : Instr), decodeWord w = some i ↔ encode i = w

/-- R62: a word is one of the six commands, its operand the `data` field, exactly when `(cmd & mask) = match`; no word satisfies two of the six pairs. -/
def Obligations.CommandsAreTheSixMaskedPatterns : Prop :=
  (∀ w : CmdWord,
    (decodeWord w = some (.cfgSym (w.extractLsb 7 0)) ↔ w &&& 0xF00 = 0x100) ∧
    (decodeWord w = some .cfgCommit ↔ w &&& 0xFFF = 0x200) ∧
    (decodeWord w = some (.encPut (w.extractLsb 7 0)) ↔ w &&& 0xF00 = 0x300) ∧
    (decodeWord w = some .encEnd ↔ w &&& 0xFFF = 0x400) ∧
    (decodeWord w = some (.decPut (w.extractLsb 7 0)) ↔ w &&& 0xF00 = 0x500) ∧
    (decodeWord w = some .decEnd ↔ w &&& 0xFFF = 0x600) ∧
    (wellFormedWord w = true ↔ (decodeWord w).isSome = true)) ∧
  opcodeMap.Pairwise fun r r' => ∀ w : CmdWord, ¬(r.covers w = true ∧ r'.covers w = true)

/-- R63: the operand is the `data` field, unchanged, and every 8-bit value is an operand. -/
def Obligations.OperandIsTheDataField : Prop :=
  ∀ d : BitVec 8,
    decodeWord (0x100 + d.setWidth 12) = some (.cfgSym d) ∧
    decodeWord (0x300 + d.setWidth 12) = some (.encPut d) ∧
    decodeWord (0x500 + d.setWidth 12) = some (.decPut d)

/-- A few words written out from R62 (30_encoding.md R75 gives `ENC.PUT 'A'` = 0x341 and `DEC.END` = 0x600). -/
def Obligations.SampleWordsDecode : Prop :=
  decodeWord 0x141 = some (.cfgSym 0x41) ∧ decodeWord 0x200 = some .cfgCommit ∧ decodeWord 0x341 = some (.encPut 0x41) ∧
  decodeWord 0x400 = some .encEnd ∧ decodeWord 0x533 = some (.decPut 0x33) ∧ decodeWord 0x600 = some .decEnd

/-- R65: which words are reserved, how many they are, and that a reserved word, in any mode, emits one `FAULT` and changes no
state element. -/
def Obligations.ReservedWordsAreRefused : Prop :=
  (∀ w : CmdWord, decodeWord w = none ↔
    (w.extractLsb 11 8 = 0 ∨ 7 ≤ (w.extractLsb 11 8).toNat ∨
      ((w.extractLsb 11 8 = 2 ∨ w.extractLsb 11 8 = 4 ∨ w.extractLsb 11 8 = 6) ∧ w.extractLsb 7 0 ≠ 0))) ∧
  ((List.range 4096).filter fun n => (decodeWord (BitVec.ofNat 12 n)).isNone).length = 3325 ∧
  ((List.range 4096).filter fun n => (decodeWord (BitVec.ofNat 12 n)).isSome).length = 771 ∧
  ∀ (s : State) (w : CmdWord) (rest : List Input), s.inp = .cmd w :: rest → decodeWord w = none →
    step s = .next { s with inp := rest, rsp := s.rsp ++ [0xF03] }

/-- R64: a command in a mode where the table does not make it legal is refused, exactly as a reserved word is; where the table makes
it legal it is not refused: no `FAULT` word is emitted. -/
def Obligations.LegalityByMode : Prop :=
  ∀ (i : Instr) (s : State),
    (¬((((∃ c, i = .cfgSym c) ∨ i = .cfgCommit) ∧ s.mode = .config) ∨
        ((i.isEncoder = true ∨ i.isDecoder = true) ∧ s.mode = .ready)) →
      exec i s = .next { s with rsp := s.rsp ++ [0xF03] }) ∧
    ((((∃ c, i = .cfgSym c) ∨ i = .cfgCommit) ∧ s.mode = .config) ∨
        ((i.isEncoder = true ∨ i.isDecoder = true) ∧ s.mode = .ready) →
      ∀ t, exec i s = .next t → ∃ l, t.rsp = s.rsp ++ l ∧ (0xF03 : RspWord) ∉ l)

/-- R66 and R142: the step on a word is decided by `decode_cmd(cmd, MODE)`. Refused: one `FAULT(0x03)` and no state element written.
Legal: the command's own meaning. -/
def Obligations.DecodeCmdDecidesTheStep : Prop :=
  ∀ (s : State) (w : CmdWord) (rest : List Input), s.inp = .cmd w :: rest →
    (decodeCmd w s.mode = none → step s = .next { s with inp := rest, rsp := s.rsp ++ [0xF03] }) ∧
    (∀ i, decodeCmd w s.mode = some i → step s = exec i { s with inp := rest }) ∧
    (∀ i, decodeCmd w s.mode = some i ↔
      decodeWord w = some i ∧
        ((((∃ c, i = .cfgSym c) ∨ i = .cfgCommit) ∧ s.mode = .config) ∨
          ((i.isEncoder = true ∨ i.isDecoder = true) ∧ s.mode = .ready)))

/-- A step runs the decoded command: it takes the oldest pending word off the port and is `exec` of the command it encodes. -/
def Obligations.StepRunsTheDecodedCommand : Prop :=
  ∀ (s : State) (w : CmdWord) (rest : List Input) (i : Instr), s.inp = .cmd w :: rest → decodeWord w = some i →
    step s = exec i { s with inp := rest }

/-- R165, R150: with nothing pending on the ports the block holds its state. -/
def Obligations.IdleStepHoldsTheState : Prop :=
  ∀ s : State, s.inp = [] → step s = .next s

/-- R75: the line that writes a command assembles to the command's word, the two examples of R75, and an operand in each of the three
forms of a number (R9). -/
def Obligations.CommandLinesAssemble : Prop :=
  (∀ i : Instr, assemble [listing i] = some [.cmd (encode i)]) ∧
  assemble ["ENC.PUT 'A'".toList, ".reset".toList, "DEC.END ; a comment".toList] = some [.cmd 0x341, .reset, .cmd 0x600] ∧
  assemble ["ENC.PUT 0x41".toList, "ENC.PUT 65".toList, "ENC.PUT 0b01000001".toList] = some [.cmd 0x341, .cmd 0x341, .cmd 0x341] ∧
  hexWord 0x341 = "341".toList ∧ hexWord 0x600 = "600".toList

/-- R76: what the pseudo-instructions expand to. -/
def Obligations.PseudoInstructionsExpand : Prop :=
  (∀ cs : List Symbol, (Pseudo.alphabet cs).words = cs.map (fun c => encode (.cfgSym c)) ++ [0x200]) ∧
  (∀ M : List Byte, (Pseudo.encode M).words = M.map (fun b => encode (.encPut b)) ++ [0x400]) ∧
  (∀ T : List Symbol, (Pseudo.decode T).words = T.map (fun c => encode (.decPut c)) ++ [0x600])

/-! ## State, reset, status (spec/10_state.md, spec/70_reset_and_hazards.md) -/

/-- R32: the reset value of every element but `RIDX`. -/
def Obligations.ResetValues : Prop :=
  State.reset.mode = .config ∧ State.reset.cfgcnt = 0 ∧ State.reset.alpha = Config.defaultAlphabet ∧
  State.reset.eacc = 0 ∧ State.reset.ecnt = 0 ∧ State.reset.dacc = 0 ∧ State.reset.dcnt = 0 ∧ State.reset.derr = false

/-- R170: reset, in any state, sets every element but `RIDX` to its reset value, emits nothing, and keeps the log. Of `RIDX` nothing
is said: the spec leaves it unspecified. -/
def Obligations.ResetStep : Prop :=
  ∀ (s : State) (rest : List Input), s.inp = .reset :: rest →
    ∃ t, step s = .next t ∧ t.mode = .config ∧ t.cfgcnt = 0 ∧
      t.alpha = Config.defaultAlphabet ∧
      t.eacc = 0 ∧ t.ecnt = 0 ∧ t.dacc = 0 ∧ t.dcnt = 0 ∧ t.derr = false ∧
      t.inp = rest ∧ t.rsp = s.rsp ∧ t.status = 0x0000

/-- R31: the fields of `STATUS`, its formula, and the three values that R31 gives. -/
def Obligations.StatusLayout : Prop :=
  (∀ s : State,
    s.status.extractLsb 1 0 = (match s.mode with | .config => 0 | .ready => 1 | .failed => 2) ∧
    s.status.getLsbD 2 = s.derr ∧
    s.status.extractLsb 5 3 = s.ecnt ∧
    s.status.extractLsb 8 6 = s.dcnt ∧
    s.status.extractLsb 14 9 = s.cfgcnt ∧
    s.status.getLsbD 15 = false ∧
    s.status.toNat = (match s.mode with | .config => 0 | .ready => 1 | .failed => 2) + 4 * s.derr.toNat + 8 * s.ecnt.toNat +
      64 * s.dcnt.toNat + 512 * s.cfgcnt.toNat) ∧
  State.reset.status = 0x0000 ∧
  ∀ s : State, s.mode = .ready → s.EncoderIdle → s.DecoderIdle →
    (s.cfgcnt = 0 → s.status = 0x0001) ∧ (s.cfgcnt = 32 → s.status = 0x4001)

/-- The invariants of R28 hold after reset. -/
def Obligations.InvariantsHoldAtReset : Prop := State.reset.Inv

/-- Every step from a state that meets the invariants of R28 gives a state that meets them. -/
def Obligations.EveryStepKeepsTheInvariants : Prop :=
  ∀ s t : State, s.Inv → step s = .next t → t.Inv

/-- R28 (marked `[derived]` by the spec): the invariants (a) to (g) in every state that any sequence of command words and resets reaches from reset. -/
def Obligations.ReachableStatesMeetTheInvariants : Prop :=
  ∀ (inp : List Input) (n : Nat) (t : State), run n { State.reset with inp := inp } = .next t →
    t.mode.bits ≠ 3 ∧
    t.cfgcnt.toNat ≤ 33 ∧
    (t.ecnt.toNat ≤ 4 ∧ t.eacc.toNat < 2 ^ t.ecnt.toNat) ∧
    (t.dcnt.toNat ≤ 7 ∧ t.dacc.toNat < 2 ^ t.dcnt.toNat) ∧
    (t.mode ≠ .ready → t.ecnt = 0 ∧ t.eacc = 0 ∧ t.dcnt = 0 ∧ t.dacc = 0 ∧ t.derr = false) ∧
    (t.mode = .ready → PairwiseDistinct t.alpha ∧ (t.cfgcnt = 0 ∨ t.cfgcnt = 32) ∧ t.RidxInverse) ∧
    (t.mode = .ready → t.cfgcnt = 0 → t.alpha = Config.defaultAlphabet)

/-- R190: the block is never stuck. A state that meets the invariants has a next state, and every run from reset completes. -/
def Obligations.TheBlockIsNeverStuck : Prop :=
  (∀ s : State, s.Inv → ∃ t, step s = .next t) ∧
  ∀ (inp : List Input) (n : Nat), ∃ t, run n { State.reset with inp := inp } = .next t

/-- R23, U7: outside `READY` the contents of `RIDX` have no observable effect. Whatever table is put there, the same run completes
with the same log, mode and every other element, and with the same table once the mode is `READY`. -/
def Obligations.ReverseTableIsUnobservableOutsideReady : Prop :=
  ∀ (n : Nat) (s t : State) (r : Vector RidxEntry 256), s.mode ≠ .ready → run n s = .next t →
    ∃ t', run n { s with ridx := r } = .next t' ∧ { t' with ridx := t.ridx } = t ∧ (t.mode = .ready → t' = t)

/-- R33, its write columns: which elements a command may write. The log only grows, and the pending port events are untouched. -/
def Obligations.CommandsWriteOnlyTheirElements : Prop :=
  ∀ (i : Instr) (s t : State), exec i s = .next t →
    s.rsp <+: t.rsp ∧
    match i with
    | .cfgSym _ =>
      t = { s with cfgcnt := t.cfgcnt, alpha := t.alpha, rsp := t.rsp } ∧
        ∀ (k : Nat) (hk : k < 32), k ≠ s.cfgcnt.toNat → t.alpha[k] = s.alpha[k]
    | .cfgCommit => t = { s with mode := t.mode, ridx := t.ridx, rsp := t.rsp }
    | .encPut _ => t = { s with eacc := t.eacc, ecnt := t.ecnt, rsp := t.rsp }
    | .encEnd => t = { s with eacc := t.eacc, ecnt := t.ecnt, rsp := t.rsp }
    | .decPut _ => t = { s with dacc := t.dacc, dcnt := t.dcnt, derr := t.derr, rsp := t.rsp }
    | .decEnd => t = { s with dacc := t.dacc, dcnt := t.dcnt, derr := t.derr, rsp := t.rsp }

/-- R33, the encoder's read columns: what an encoder command does is the same whatever `CFGCNT`, `RIDX`, `DACC`, `DCNT`, `DERR`, the
pending events and the log hold. -/
def Obligations.EncoderReadsOnlyItsElements : Prop :=
  ∀ (i : Instr) (s t s' : State), i.isEncoder = true → exec i s = .next t →
    s'.mode = s.mode → s'.alpha = s.alpha → s'.eacc = s.eacc → s'.ecnt = s.ecnt →
    ∃ l, t.rsp = s.rsp ++ l ∧ exec i s' = .next { s' with eacc := t.eacc, ecnt := t.ecnt, rsp := s'.rsp ++ l }

/-- R33, the decoder's read columns: what a decoder command does is the same whatever `CFGCNT`, `ALPHA`, `EACC`, `ECNT`, the pending
events and the log hold. -/
def Obligations.DecoderReadsOnlyItsElements : Prop :=
  ∀ (i : Instr) (s t s' : State), i.isDecoder = true → exec i s = .next t →
    s'.mode = s.mode → s'.ridx = s.ridx → s'.dacc = s.dacc → s'.dcnt = s.dcnt → s'.derr = s.derr →
    ∃ l, t.rsp = s.rsp ++ l ∧
      exec i s' = .next { s' with dacc := t.dacc, dcnt := t.dcnt, derr := t.derr, rsp := s'.rsp ++ l }

/-- R114, R20: the next mode for each mode and each kind of step. -/
def Obligations.ModeTransitions : Prop :=
  ∀ s t : State, step s = .next t →
    t.mode =
      match s.inp with
      | [] => s.mode
      | .reset :: _ => .config
      | .cmd w :: _ =>
        if s.mode = .config ∧ w = 0x200 then (if validAlphabet s.cfgcnt s.alpha then .ready else .failed) else s.mode

/-- R71, R122 (bound): a step appends at most two words to the log, and they are words of R71; a decoder command and `CFG.COMMIT`
append at most one. -/
def Obligations.ResponsesOfOneStep : Prop :=
  (∀ s t : State, step s = .next t → ∃ l, t.rsp = s.rsp ++ l ∧ l.length ≤ 2 ∧
    ∀ w ∈ l, (∃ c : Symbol, w = 0x300 + c.setWidth 12) ∨ (∃ b : Byte, w = 0x500 + b.setWidth 12) ∨
      w ∈ ([0x200, 0x202, 0x400, 0x600, 0x601, 0xF03] : List RspWord)) ∧
  ∀ (i : Instr) (s t : State), i.isDecoder = true ∨ i = .cfgCommit → exec i s = .next t →
    ∃ l, t.rsp = s.rsp ++ l ∧ l.length ≤ 1

/-! ## Configuration (spec/41_config_commands.md) -/

/-- R110: `CFG.SYM`, by `CFGCNT`. -/
def Obligations.CfgSymStoresTheNextSymbol : Prop :=
  ∀ (c : Symbol) (s : State),
    (s.mode ≠ .config → exec (.cfgSym c) s = .next { s with rsp := s.rsp ++ [0xF03] }) ∧
    (s.mode = .config →
      (∀ h : s.cfgcnt.toNat < 32,
        exec (.cfgSym c) s = .next { s with alpha := s.alpha.set s.cfgcnt.toNat c h, cfgcnt := s.cfgcnt + 1 }) ∧
      (s.cfgcnt = 32 → exec (.cfgSym c) s = .next { s with cfgcnt := 33 }) ∧
      (s.cfgcnt = 33 → exec (.cfgSym c) s = .next s))

/-- R111: `ValidAlphabet` is a count of 0 or 32 and pairwise distinct entries, and it holds of the reset state. -/
def Obligations.ValidAlphabetMeansCountAndDistinct : Prop :=
  (∀ (k : BitVec 6) (alpha : Vector Symbol 32),
    validAlphabet k alpha = true ↔
      (k = 0 ∨ k = 32) ∧ ∀ (i j : Nat) (hj : j < 32) (hij : i < j), alpha[i]'(by omega) ≠ alpha[j]) ∧
  validAlphabet 0 Config.defaultAlphabet = true

/-- R112: `CFG.COMMIT`. On a valid alphabet it builds the exact inverse of `ALPHA` and locks it; otherwise it raises
`InvalidAlphabet`, whose whole effect (R143) is the mode and one response. -/
def Obligations.CfgCommitValidatesBuildsAndLocks : Prop :=
  ∀ s : State,
    (s.mode ≠ .config → exec .cfgCommit s = .next { s with rsp := s.rsp ++ [0xF03] }) ∧
    (s.mode = .config → s.cfgcnt.toNat ≤ 33 →
      ((s.cfgcnt = 0 ∨ s.cfgcnt = 32) ∧ PairwiseDistinct s.alpha →
        ∃ r : Vector RidxEntry 256,
          exec .cfgCommit s = .next { s with mode := .ready, ridx := r, rsp := s.rsp ++ [0x200] } ∧
          (∀ (c : Nat) (hc : c < 256) (i : Nat) (hi : i < 32), (s.alpha[i]).toNat = c → r[c] = ⟨true, BitVec.ofNat 5 i⟩) ∧
          (∀ (c : Nat) (hc : c < 256), (∀ (i : Nat) (hi : i < 32), (s.alpha[i]).toNat ≠ c) → r[c] = ⟨false, 0⟩)) ∧
      (¬((s.cfgcnt = 0 ∨ s.cfgcnt = 32) ∧ PairwiseDistinct s.alpha) →
        exec .cfgCommit s = .next { s with mode := .failed, rsp := s.rsp ++ [0x202] }))

/-- R113 (marked `[derived]` by the spec): the three fates of a command stream from reset, decided by its words `ws` up to the first `CFG.COMMIT`. Without one the
block is in `CONFIG` and has emitted only `FAULT` words. With one, it is `READY` for good after exactly 0 symbols, or exactly 32
distinct ones, and `FAILED` otherwise; refused words in between do not count. -/
def Obligations.ConfigurationSequence : Prop :=
  ∀ ws : List CmdWord, (∀ w ∈ ws, decodeWord w ≠ some .cfgCommit) →
    ∃ t, send ws State.reset = .next t ∧ t.mode = .config ∧ (∀ r ∈ t.rsp, r = 0xF03) ∧
      t.cfgcnt.toNat = min (offeredSymbols ws).length 33 ∧
      (∀ (k : Nat) (hk : k < 32), t.alpha[k] = ((offeredSymbols ws)[k]?).getD Config.defaultAlphabet[k]) ∧
      ∀ later : List CmdWord, ∃ u, send (0x200 :: later) t = .next u ∧
        (offeredSymbols ws = [] → u.mode = .ready ∧ u.alpha = Config.defaultAlphabet) ∧
        ((offeredSymbols ws).length = 32 → (offeredSymbols ws).Nodup →
          u.mode = .ready ∧ u.alpha.toList = offeredSymbols ws) ∧
        (¬(offeredSymbols ws = [] ∨ (offeredSymbols ws).length = 32 ∧ (offeredSymbols ws).Nodup) → u.mode = .failed)

/-- R51, R173: in `READY` no command word changes `ALPHA`, `RIDX`, `CFGCNT` or the mode. -/
def Obligations.AlphabetIsFrozenInReady : Prop :=
  ∀ (s t : State) (ws : List CmdWord), s.mode = .ready → send ws s = .next t →
    t.mode = .ready ∧ t.alpha = s.alpha ∧ t.ridx = s.ridx ∧ t.cfgcnt = s.cfgcnt

/-- R143, R147: in `FAILED` every word is refused and changes nothing: each is answered by one `FAULT(0x03)`. -/
def Obligations.FailedRefusesEveryWord : Prop :=
  ∀ (s : State) (ws : List CmdWord), s.mode = .failed →
    send ws s = .next { s with rsp := s.rsp ++ List.replicate ws.length 0xF03 }

/-- U11: in a state with a register value that no rule writes, a command that reads the register is refused by name. The states are
unreachable (R28); the refusals are the model's (assumption 3). -/
def Obligations.UnwrittenRegisterValuesAreRefused : Prop :=
  ∀ s : State,
    (s.mode = .config → ¬s.CfgcntLegal →
      (∀ c, exec (.cfgSym c) s = .refused .cfgcntOutOfRange) ∧ exec .cfgCommit s = .refused .cfgcntOutOfRange) ∧
    (s.mode = .ready → ¬s.EncoderLegal →
      (∀ b, exec (.encPut b) s = .refused .encoderResidualOutOfRange) ∧
        exec .encEnd s = .refused .encoderResidualOutOfRange) ∧
    (s.mode = .ready → s.derr = false → ¬s.DecoderLegal → ∀ c, (s.readRev c).valid = true →
      exec (.decPut c) s = .refused .decoderResidualOutOfRange)

/-! ## Encoder lane (spec/42_encode_commands.md) -/

/-- R120: `ENC.PUT`, by the case table on `ECNT`: the symbols emitted, `EACC` and `ECNT` after. -/
def Obligations.EncPutFollowsTheCaseTable : Prop :=
  ∀ (b : Byte) (s : State),
    (s.mode ≠ .ready → exec (.encPut b) s = .next { s with rsp := s.rsp ++ [0xF03] }) ∧
    (s.mode = .ready → s.ecnt.toNat ≤ 4 → s.eacc.toNat < 2 ^ s.ecnt.toNat →
      ∃ gs e' k', encPutRow s.ecnt s.eacc b = some (gs, e', k') ∧
        exec (.encPut b) s = .next { s with
          eacc := e', ecnt := k', rsp := s.rsp ++ gs.map (fun g => 0x300 + (s.readFwd g).setWidth 12) })

/-- R121: `ENC.END`: the residual padded with zero bits on the right as the last symbol, if there is one, then `EDONE(0x00)`. -/
def Obligations.EncEndFlushesThePaddedResidual : Prop :=
  ∀ s : State,
    (s.mode ≠ .ready → exec .encEnd s = .next { s with rsp := s.rsp ++ [0xF03] }) ∧
    (s.mode = .ready → s.ecnt.toNat ≤ 4 → s.eacc.toNat < 2 ^ s.ecnt.toNat →
      (s.ecnt = 0 → exec .encEnd s = .next { s with eacc := 0, ecnt := 0, rsp := s.rsp ++ [0x400] }) ∧
      (s.ecnt ≠ 0 → ∃ g : Group, g.toNat = s.eacc.toNat * 2 ^ (5 - s.ecnt.toNat) ∧
        exec .encEnd s = .next { s with
          eacc := 0, ecnt := 0, rsp := s.rsp ++ [0x300 + (s.readFwd g).setWidth 12, 0x400] }))

/-- R122 (marked `[derived]` by the spec): the encoder's phase. After `k` bytes from an idle lane it holds the last `8k mod 5` bits and has emitted `floor(8k/5)`
symbols; an `ENC.PUT` emits one word when `ECNT` is 0 or 1 and two when it is 2, 3 or 4, an `ENC.END` one or two. -/
def Obligations.EncoderPhase : Prop :=
  (∀ (s : State) (M : List Byte), s.mode = .ready → s.EncoderIdle →
    ∃ t l, send (M.map fun b => encode (.encPut b)) s = .next t ∧ t.rsp = s.rsp ++ l ∧
      l.length = 8 * M.length / 5 ∧ t.ecnt.toNat = 8 * M.length % 5 ∧
      t.eacc.toNat = natOfBits ((bitsOf8 M).drop (8 * M.length - 8 * M.length % 5))) ∧
  (∀ (s t : State) (b : Byte), s.mode = .ready → exec (.encPut b) s = .next t →
    ∃ l, t.rsp = s.rsp ++ l ∧ l.length = if s.ecnt.toNat ≤ 1 then 1 else 2) ∧
  (∀ s t : State, s.mode = .ready → exec .encEnd s = .next t →
    ∃ l, t.rsp = s.rsp ++ l ∧ l.length = if s.ecnt.toNat = 0 then 1 else 2)

/-- R123 (marked `[derived]` by the spec): the encoder's responses and residual are the same as if the words that are not encoder commands had not been sent. -/
def Obligations.EncoderLaneIsIndependent : Prop :=
  ∀ (s : State) (ws : List CmdWord), s.Inv → s.mode = .ready →
    ∃ t t' l l',
      send ws s = .next t ∧ t.rsp = s.rsp ++ l ∧
      send (ws.filter fun w => (decodeWord w).any Instr.isEncoder) s = .next t' ∧ t'.rsp = s.rsp ++ l' ∧
      encoderResponses l = l' ∧ t.eacc = t'.eacc ∧ t.ecnt = t'.ecnt

/-- R124 (marked `[derived]` by the spec): the encoder transaction. In `READY` with the encoder lane idle, a stream whose encoder commands are `ENC.PUT` of the bytes of
`M` in order and one `ENC.END`, with any other words between them, yields as encoder responses the symbols of `Encode(ALPHA, M)`
and `EDONE(0x00)`, and leaves the lane idle. -/
def Obligations.EncoderTransaction : Prop :=
  ∀ (A : Alphabet) (s : State) (ws : List CmdWord) (M : List Byte),
    s.Inv → s.mode = .ready → s.alpha = A.codes → s.EncoderIdle →
    encoderCommands ws = M.map .encPut ++ [.encEnd] →
    ∃ t l, send ws s = .next t ∧ t.rsp = s.rsp ++ l ∧
      encoderResponses l = (A.encode M).map (fun c => 0x300 + c.setWidth 12) ++ [0x400] ∧
      (A.encode M).length = (8 * M.length + 4) / 5 ∧ t.EncoderIdle

/-! ## Decoder lane (spec/43_decode_commands.md) -/

/-- R130: `DEC.PUT`: ignored while `DERR` = 1; a symbol that no entry of `ALPHA` equals sets `DERR` and nothing else; the symbol of
index `i` follows the case table on `DCNT`. -/
def Obligations.DecPutFollowsTheCaseTable : Prop :=
  ∀ (c : Symbol) (s : State),
    (s.mode ≠ .ready → exec (.decPut c) s = .next { s with rsp := s.rsp ++ [0xF03] }) ∧
    (s.mode = .ready → s.derr = true → exec (.decPut c) s = .next s) ∧
    (s.mode = .ready → s.derr = false → s.RidxInverse → s.dacc.toNat < 2 ^ s.dcnt.toNat →
      ((∀ i : Group, s.readFwd i ≠ c) → exec (.decPut c) s = .next { s with derr := true }) ∧
      (∀ i : Group, s.readFwd i = c →
        exec (.decPut c) s = .next { s with
          dacc := (decPutRow s.dcnt s.dacc i).2.1, dcnt := (decPutRow s.dcnt s.dacc i).2.2,
          rsp := s.rsp ++ (decPutRow s.dcnt s.dacc i).1.map (fun b => 0x500 + b.setWidth 12) }))

/-- R132: `DEC.END` reports the outcome, discards the residual and clears the flag, in every state of `READY`. -/
def Obligations.DecEndReportsAndClears : Prop :=
  ∀ s : State,
    (s.mode ≠ .ready → exec .decEnd s = .next { s with rsp := s.rsp ++ [0xF03] }) ∧
    (s.mode = .ready → s.derr = false →
      exec .decEnd s = .next { s with dacc := 0, dcnt := 0, derr := false, rsp := s.rsp ++ [0x600] }) ∧
    (s.mode = .ready → s.derr = true →
      exec .decEnd s = .next { s with dacc := 0, dcnt := 0, derr := false, rsp := s.rsp ++ [0x601] })

/-- R131 (marked `[derived]` by the spec): the decoder's phase. After `k` symbols of the alphabet from an idle lane it holds the last `5k mod 8` index bits and has
emitted `floor(5k/8)` bytes; a decoder command emits at most one word. -/
def Obligations.DecoderPhase : Prop :=
  (∀ (A : Alphabet) (s : State) (T : List Symbol) (I : List Group),
    s.Inv → s.mode = .ready → s.alpha = A.codes → s.DecoderIdle → T.mapM A.rev = some I →
    ∃ t l, send (T.map fun c => encode (.decPut c)) s = .next t ∧ t.rsp = s.rsp ++ l ∧
      l.length = 5 * T.length / 8 ∧ t.dcnt.toNat = 5 * T.length % 8 ∧ t.derr = false ∧
      t.dacc.toNat = natOfBits ((bitsOf5 I).drop (5 * T.length - 5 * T.length % 8))) ∧
  (∀ (i : Instr) (s t : State), i.isDecoder = true → exec i s = .next t → ∃ l, t.rsp = s.rsp ++ l ∧ l.length ≤ 1)

/-- R133, R141: after a foreign symbol, until the closing `DEC.END`, no byte is emitted and the decoder lane does not move. -/
def Obligations.NoBytesAfterAForeignSymbol : Prop :=
  ∀ (s : State) (ws : List CmdWord), s.Inv → s.mode = .ready → s.derr = true → (∀ w ∈ ws, decodeWord w ≠ some .decEnd) →
    ∃ t l, send ws s = .next t ∧ t.rsp = s.rsp ++ l ∧ decoderResponses l = [] ∧
      t.derr = true ∧ t.dacc = s.dacc ∧ t.dcnt = s.dcnt

/-- R134 (marked `[derived]` by the spec): the decoder transaction. In `READY` with the decoder lane idle, a stream whose decoder commands are `DEC.PUT` of the symbols of
`T` in order and one `DEC.END`, with any other words between them, yields as decoder responses the bytes of `Decode(ALPHA, T)` and
`DDONE(0x00)`; or, when the decode fails, the bytes of the symbols before the first foreign one, at position `f`, and
`DDONE(0x01)`. The lane is idle afterwards. -/
def Obligations.DecoderTransaction : Prop :=
  ∀ (A : Alphabet) (s : State) (ws : List CmdWord) (T : List Symbol),
    s.Inv → s.mode = .ready → s.alpha = A.codes → s.DecoderIdle →
    decoderCommands ws = T.map .decPut ++ [.decEnd] →
    ∃ t l, send ws s = .next t ∧ t.rsp = s.rsp ++ l ∧ t.DecoderIdle ∧
      match A.decode T with
      | .ok M => M.length = 5 * T.length / 8 ∧ decoderResponses l = M.map (fun b => 0x500 + b.setWidth 12) ++ [0x600]
      | .symbolNotFound =>
        ∃ (f : Nat) (c : Symbol) (P : List Byte), T[f]? = some c ∧ c ∉ A.codes.toList ∧ A.decode (T.take f) = .ok P ∧
          P.length = 5 * f / 8 ∧ decoderResponses l = P.map (fun b => 0x500 + b.setWidth 12) ++ [0x601]

/-- R133: a failed decode transaction. The symbols before the first foreign one may have emitted bytes; from the foreign symbol on the
decoder emits nothing but the closing `DDONE(0x01)`, whatever other symbols and words follow; and the transaction is observed as the
error alone, with no byte list. -/
def Obligations.FailedDecodeIsTheErrorAlone : Prop :=
  ∀ (A : Alphabet) (s : State) (before after : List Symbol) (c : Symbol) (ws ws' : List CmdWord),
    s.Inv → s.mode = .ready → s.alpha = A.codes → s.DecoderIdle →
    (∀ x ∈ before, x ∈ A.codes.toList) → c ∉ A.codes.toList →
    decoderCommands ws = before.map .decPut → decoderCommands ws' = after.map .decPut ++ [.decEnd] →
    ∃ P t l u l', A.decode before = .ok P ∧
      send ws s = .next t ∧ t.rsp = s.rsp ++ l ∧ decoderResponses l = P.map (fun b => 0x500 + b.setWidth 12) ∧
      send (encode (.decPut c) :: ws') t = .next u ∧ u.rsp = t.rsp ++ l' ∧ decoderResponses l' = [0x601] ∧
      decodeOutcomes (l ++ l') = [.symbolNotFound]

/-- R124, R134, R141 and the ruling C2, for whole sequences of calls on both lanes: in `READY` with both lanes idle, a stream whose
encoder commands are encode calls on `Ms` and whose decoder commands are decode calls on `Ts`, interleaved in any way with each other
and with refused words, each followed by a call not yet closed, is observed as exactly the results of those calls, in order. A failed
decode is the error alone and leaves the later calls as they are. -/
def Obligations.CallsAreObservedAsEncodeAndDecode : Prop :=
  ∀ (A : Alphabet) (s : State) (ws : List CmdWord) (Ms : List (List Byte)) (Ts : List (List Symbol)) (M : List Byte) (T : List Symbol),
    s.Inv → s.mode = .ready → s.alpha = A.codes → s.EncoderIdle → s.DecoderIdle →
    encoderCommands ws = (Ms.flatMap fun m => (Pseudo.encode m).expand) ++ M.map .encPut →
    decoderCommands ws = (Ts.flatMap fun k => (Pseudo.decode k).expand) ++ T.map .decPut →
    ∃ t l, send ws s = .next t ∧ t.rsp = s.rsp ++ l ∧
      encodeOutcomes l = Ms.map A.encode ∧ decodeOutcomes l = Ts.map A.decode

/-- R135 (marked `[derived]` by the spec): the decoder's responses, residual and flag are the same as if the words that are not decoder commands had not been sent. -/
def Obligations.DecoderLaneIsIndependent : Prop :=
  ∀ (s : State) (ws : List CmdWord), s.Inv → s.mode = .ready →
    ∃ t t' l l',
      send ws s = .next t ∧ t.rsp = s.rsp ++ l ∧
      send (ws.filter fun w => (decodeWord w).any Instr.isDecoder) s = .next t' ∧ t'.rsp = s.rsp ++ l' ∧
      decoderResponses l = l' ∧ t.dacc = t'.dacc ∧ t.dcnt = t'.dcnt ∧ t.derr = t'.derr

/-- R136 (marked `[derived]` by the spec): the round trip through the block, with the alphabet it was configured with: the symbols collected from an encoder
transaction on `M`, sent as a decoder transaction, give the bytes of `M` back. -/
def Obligations.RoundTripThroughTheBlock : Prop :=
  ∀ (s : State) (M : List Byte), s.Inv → s.mode = .ready → s.EncoderIdle → s.DecoderIdle →
    ∃ t l u, send (Pseudo.encode M).words s = .next t ∧ t.rsp = s.rsp ++ l ∧
      send (Pseudo.decode (collectSymbols l)).words t = .next u ∧
      u.rsp = t.rsp ++ M.map (fun b => 0x500 + b.setWidth 12) ++ [0x600]

/-! ## The codec's contract (spec/20_memory.md, spec/40_codec_functions.md) -/

/-- R42: bit `k` of `BitsOf8(M)` is `M[k/8][7 - k mod 8]`, and bit `k` of `BitsOf5(I)` is `I[k/5][4 - k mod 5]`. -/
def Obligations.BitSequencesByPosition : Prop :=
  (∀ M : List Byte, (bitsOf8 M).length = 8 * M.length ∧
    ∀ (k : Nat) (hk : k < 8 * M.length), (bitsOf8 M)[k]? = some ((M[k / 8]'(by omega)).getLsbD (7 - k % 8))) ∧
  (∀ I : List Group, (bitsOf5 I).length = 5 * I.length ∧
    ∀ (k : Nat) (hk : k < 5 * I.length), (bitsOf5 I)[k]? = some ((I[k / 5]'(by omega)).getLsbD (4 - k % 5)))

/-- R90, R91: in `READY` the block's two look-ups are `Fwd` and `Rev` of its alphabet: `Rev` answers `i` exactly where `A[i]` is the
symbol, and no index exactly where no entry is. -/
def Obligations.BlockLookupsAreFwdAndRev : Prop :=
  ∀ (A : Alphabet) (s : State), s.Inv → s.mode = .ready → s.alpha = A.codes →
    (∀ i : Group, s.readFwd i = A.fwd i) ∧
    ∀ c : Symbol, s.lookupRev c = A.rev c ∧ (∀ i : Group, A.rev c = some i ↔ A.fwd i = c) ∧
      (A.rev c = none ↔ ∀ i : Group, A.fwd i ≠ c)

/-- R92 (marked `[derived]` by the spec): the two look-ups are mutually inverse, and exactly 32 of the 256 codes are found. -/
def Obligations.LookupsAreMutuallyInverse : Prop :=
  ∀ A : Alphabet,
    (∀ i : Group, A.rev (A.fwd i) = some i) ∧
    (∀ (c : Symbol) (i : Group), A.rev c = some i → A.fwd i = c) ∧
    ((List.range 256).filter fun n => (A.rev (BitVec.ofNat 8 n)).isSome).length = 32

/-- R74 (marked `[derived]` by the spec): the default alphabet's reverse table, in the ASCII codes that the spec takes from general
knowledge (assumption 7): the 32 listed codes give their index, every other code none. -/
def Obligations.DefaultAlphabetReverseTable : Prop :=
  ∀ (A : Alphabet), A.codes = Config.defaultAlphabet → ∀ c : Symbol,
    A.rev c =
      (([(0x30, 31), (0x31, 0), (0x32, 4), (0x33, 8), (0x34, 14), (0x35, 26), (0x36, 27), (0x37, 28),
        (0x38, 29), (0x39, 30), (0x41, 20), (0x62, 1), (0x63, 2), (0x64, 3), (0x66, 5), (0x67, 6),
        (0x68, 7), (0x6A, 9), (0x6B, 10), (0x6C, 11), (0x6D, 12), (0x6E, 13), (0x70, 15), (0x71, 16),
        (0x72, 17), (0x73, 18), (0x74, 19), (0x76, 21), (0x77, 22), (0x78, 23), (0x79, 24), (0x7A, 25)] :
        List (Symbol × Group)).find? (fun p => p.1 == c)).map Prod.snd

/-- R94 (marked `[derived]` by the spec): `Encode` in integer form. -/
def Obligations.EncodeInIntegerForm : Prop :=
  ∀ (A : Alphabet) (M : List Byte),
    let L := M.length
    let n := (8 * L + 4) / 5
    let pad := 5 * n - 8 * L
    let C := (∑ i : Fin L, M[i].toNat * 256 ^ (L - 1 - i.val)) * 2 ^ pad
    A.encode M = (List.range n).map fun j => A.fwd (BitVec.ofNat 5 (C / 32 ^ (n - 1 - j) % 32))

/-- R97 (marked `[derived]` by the spec): `Decode` in integer form, for a token all of whose symbols are found. -/
def Obligations.DecodeInIntegerForm : Prop :=
  ∀ (A : Alphabet) (T : List Symbol) (I : List Group), T.mapM A.rev = some I →
    let n := T.length
    let m := 5 * n / 8
    let slack := 5 * n - 8 * m
    let D := ∑ j : Fin I.length, I[j].toNat * 32 ^ (n - 1 - j.val)
    A.decode T = .ok ((List.range m).map fun i => BitVec.ofNat 8 (D / 2 ^ (slack + 8 * (m - 1 - i)) % 256))

/-- R95 (a), (b), (c), R43: the length of a token, that its symbols are entries of the alphabet, and that the last `pad` bits of the
last group are zero. -/
def Obligations.EncodedTokenShape : Prop :=
  ∀ (A : Alphabet) (M : List Byte),
    (A.encode M).length = (8 * M.length + 4) / 5 ∧
    (∀ c ∈ A.encode M, c ∈ A.codes.toList) ∧
    ∀ g : Group, (groupsOf M).getLast? = some g → g.toNat % 2 ^ (5 * ((8 * M.length + 4) / 5) - 8 * M.length) = 0

/-- R95 (d): `Encode` is injective. -/
def Obligations.EncodeIsInjective : Prop :=
  ∀ (A : Alphabet) (M M' : List Byte), A.encode M = A.encode M' → M = M'

/-- R95 (e): at 5-byte boundaries `Encode` of a concatenation is the concatenation. -/
def Obligations.EncodeSplitsAtFiveByteBoundaries : Prop :=
  ∀ (A : Alphabet) (M M' : List Byte), M.length % 5 = 0 → A.encode (M ++ M') = A.encode M ++ A.encode M'

/-- R95 (f): changing the alphabet re-labels the symbols and changes nothing else. -/
def Obligations.ChangingTheAlphabetRelabels : Prop :=
  ∀ (A A' : Alphabet) (M : List Byte), (A.encode M).mapM (fun c => (A.rev c).map A'.fwd) = some (A'.encode M)

/-- R96, R45: `Decode` fails exactly when some symbol of the token is foreign, whatever the length and the slack bits; otherwise the
message has `floor(5n/8)` bytes and `5n mod 8` bits are dropped. A token of length 1, 3 or 6 modulo 8 decodes as the token without
its last symbol. -/
def Obligations.DecodeAcceptsEveryTokenOfTheAlphabet : Prop :=
  ∀ (A : Alphabet) (T : List Symbol),
    (A.decode T = .symbolNotFound ↔ ∃ c ∈ T, c ∉ A.codes.toList) ∧
    (∀ M, A.decode T = .ok M → M.length = 5 * T.length / 8) ∧
    (∀ I, T.mapM A.rev = some I → (slackBits I).length = 5 * T.length % 8) ∧
    ((T.length % 8 = 1 ∨ T.length % 8 = 3 ∨ T.length % 8 = 6) → (∀ c ∈ T, c ∈ A.codes.toList) →
      A.decode T = A.decode T.dropLast)

/-- R98 (a) to (d): the length laws. -/
def Obligations.LengthLaws : Prop :=
  ∀ L n : Nat,
    (8 * L ≤ 5 * tokenLength L ∧ 5 * tokenLength L ≤ 8 * L + 4) ∧
    messageLength (tokenLength L) = L ∧
    (5 * n ≤ 8 * messageLength n + 7 ∧ 8 * messageLength n ≤ 5 * n) ∧
    (tokenLength (messageLength n) = n ↔ CanonicalLength n) ∧
    (¬CanonicalLength n → tokenLength (messageLength n) = n - 1)

/-- R99: decoding an encoded message gives the message, for every alphabet of 32 distinct symbols and every message. -/
def Obligations.DecodeUndoesEncode : Prop :=
  ∀ (A : Alphabet) (M : List Byte), A.decode (A.encode M) = .ok M

/-- R100 (marked `[derived]` by the spec): encoding a decoded token gives the token exactly when it is canonical; otherwise the result is shorter by one symbol, or its
last symbol differs, or both. -/
def Obligations.EncodeUndoesDecodeOnCanonicalTokens : Prop :=
  ∀ (A : Alphabet) (T : List Symbol) (I : List Group) (M : List Byte), T.mapM A.rev = some I → A.decode T = .ok M →
    (A.encode M = T ↔ CanonicalLength T.length ∧ ∀ b ∈ slackBits I, b = false) ∧
    (CanonicalLength T.length → (A.encode M).length = T.length) ∧
    (¬CanonicalLength T.length → (A.encode M).length + 1 = T.length) ∧
    (let n' := (A.encode M).length
      let inside := ((bitsOf5 I).take (5 * n')).drop (8 * M.length)
      ((∀ b ∈ inside, b = false) → A.encode M = T.take n') ∧
      (true ∈ inside → (A.encode M).getLast? ≠ T[n' - 1]?))
end

