-- ==== Sys2Proof/Laws/State.lean ====
section
/-! SUPPORT. Every field after every update of the state, each true by unfolding; later proofs rewrite with these and never unfold an
update. -/

namespace Sys2Proof.Machine

/-! ### `State.emits` -/

@[simp] theorem State.emits_mode (s : State) (rs : List Response) : (s.emits rs).mode = s.mode := rfl
@[simp] theorem State.emits_cfgcnt (s : State) (rs : List Response) : (s.emits rs).cfgcnt = s.cfgcnt := rfl
@[simp] theorem State.emits_alpha (s : State) (rs : List Response) : (s.emits rs).alpha = s.alpha := rfl
@[simp] theorem State.emits_ridx (s : State) (rs : List Response) : (s.emits rs).ridx = s.ridx := rfl
@[simp] theorem State.emits_eacc (s : State) (rs : List Response) : (s.emits rs).eacc = s.eacc := rfl
@[simp] theorem State.emits_ecnt (s : State) (rs : List Response) : (s.emits rs).ecnt = s.ecnt := rfl
@[simp] theorem State.emits_dacc (s : State) (rs : List Response) : (s.emits rs).dacc = s.dacc := rfl
@[simp] theorem State.emits_dcnt (s : State) (rs : List Response) : (s.emits rs).dcnt = s.dcnt := rfl
@[simp] theorem State.emits_derr (s : State) (rs : List Response) : (s.emits rs).derr = s.derr := rfl
@[simp] theorem State.emits_inp (s : State) (rs : List Response) : (s.emits rs).inp = s.inp := rfl
@[simp] theorem State.emits_rsp (s : State) (rs : List Response) : (s.emits rs).rsp = s.rsp ++ rs.map Response.word := rfl

/-! ### `State.setDerr` -/

@[simp] theorem State.setDerr_mode (s : State) : s.setDerr.mode = s.mode := rfl
@[simp] theorem State.setDerr_cfgcnt (s : State) : s.setDerr.cfgcnt = s.cfgcnt := rfl
@[simp] theorem State.setDerr_alpha (s : State) : s.setDerr.alpha = s.alpha := rfl
@[simp] theorem State.setDerr_ridx (s : State) : s.setDerr.ridx = s.ridx := rfl
@[simp] theorem State.setDerr_eacc (s : State) : s.setDerr.eacc = s.eacc := rfl
@[simp] theorem State.setDerr_ecnt (s : State) : s.setDerr.ecnt = s.ecnt := rfl
@[simp] theorem State.setDerr_dacc (s : State) : s.setDerr.dacc = s.dacc := rfl
@[simp] theorem State.setDerr_dcnt (s : State) : s.setDerr.dcnt = s.dcnt := rfl
@[simp] theorem State.setDerr_derr (s : State) : s.setDerr.derr = true := rfl
@[simp] theorem State.setDerr_inp (s : State) : s.setDerr.inp = s.inp := rfl
@[simp] theorem State.setDerr_rsp (s : State) : s.setDerr.rsp = s.rsp := rfl

/-! ### `State.clearDerr` -/

@[simp] theorem State.clearDerr_mode (s : State) : s.clearDerr.mode = s.mode := rfl
@[simp] theorem State.clearDerr_cfgcnt (s : State) : s.clearDerr.cfgcnt = s.cfgcnt := rfl
@[simp] theorem State.clearDerr_alpha (s : State) : s.clearDerr.alpha = s.alpha := rfl
@[simp] theorem State.clearDerr_ridx (s : State) : s.clearDerr.ridx = s.ridx := rfl
@[simp] theorem State.clearDerr_eacc (s : State) : s.clearDerr.eacc = s.eacc := rfl
@[simp] theorem State.clearDerr_ecnt (s : State) : s.clearDerr.ecnt = s.ecnt := rfl
@[simp] theorem State.clearDerr_dacc (s : State) : s.clearDerr.dacc = s.dacc := rfl
@[simp] theorem State.clearDerr_dcnt (s : State) : s.clearDerr.dcnt = s.dcnt := rfl
@[simp] theorem State.clearDerr_derr (s : State) : s.clearDerr.derr = false := rfl
@[simp] theorem State.clearDerr_inp (s : State) : s.clearDerr.inp = s.inp := rfl
@[simp] theorem State.clearDerr_rsp (s : State) : s.clearDerr.rsp = s.rsp := rfl

/-! ### `State.clearDecoder` -/

@[simp] theorem State.clearDecoder_mode (s : State) : s.clearDecoder.mode = s.mode := rfl
@[simp] theorem State.clearDecoder_cfgcnt (s : State) : s.clearDecoder.cfgcnt = s.cfgcnt := rfl
@[simp] theorem State.clearDecoder_alpha (s : State) : s.clearDecoder.alpha = s.alpha := rfl
@[simp] theorem State.clearDecoder_ridx (s : State) : s.clearDecoder.ridx = s.ridx := rfl
@[simp] theorem State.clearDecoder_eacc (s : State) : s.clearDecoder.eacc = s.eacc := rfl
@[simp] theorem State.clearDecoder_ecnt (s : State) : s.clearDecoder.ecnt = s.ecnt := rfl
@[simp] theorem State.clearDecoder_dacc (s : State) : s.clearDecoder.dacc = 0 := rfl
@[simp] theorem State.clearDecoder_dcnt (s : State) : s.clearDecoder.dcnt = 0 := rfl
@[simp] theorem State.clearDecoder_derr (s : State) : s.clearDecoder.derr = false := rfl
@[simp] theorem State.clearDecoder_inp (s : State) : s.clearDecoder.inp = s.inp := rfl
@[simp] theorem State.clearDecoder_rsp (s : State) : s.clearDecoder.rsp = s.rsp := rfl

/-! ### `State.setEncoder` -/

@[simp] theorem State.setEncoder_mode (s : State) (a k : Nat) : (s.setEncoder a k).mode = s.mode := rfl
@[simp] theorem State.setEncoder_cfgcnt (s : State) (a k : Nat) : (s.setEncoder a k).cfgcnt = s.cfgcnt := rfl
@[simp] theorem State.setEncoder_alpha (s : State) (a k : Nat) : (s.setEncoder a k).alpha = s.alpha := rfl
@[simp] theorem State.setEncoder_ridx (s : State) (a k : Nat) : (s.setEncoder a k).ridx = s.ridx := rfl
@[simp] theorem State.setEncoder_eacc (s : State) (a k : Nat) : (s.setEncoder a k).eacc = BitVec.ofNat 4 a := rfl
@[simp] theorem State.setEncoder_ecnt (s : State) (a k : Nat) : (s.setEncoder a k).ecnt = BitVec.ofNat 3 k := rfl
@[simp] theorem State.setEncoder_dacc (s : State) (a k : Nat) : (s.setEncoder a k).dacc = s.dacc := rfl
@[simp] theorem State.setEncoder_dcnt (s : State) (a k : Nat) : (s.setEncoder a k).dcnt = s.dcnt := rfl
@[simp] theorem State.setEncoder_derr (s : State) (a k : Nat) : (s.setEncoder a k).derr = s.derr := rfl
@[simp] theorem State.setEncoder_inp (s : State) (a k : Nat) : (s.setEncoder a k).inp = s.inp := rfl
@[simp] theorem State.setEncoder_rsp (s : State) (a k : Nat) : (s.setEncoder a k).rsp = s.rsp := rfl

/-! ### `State.setDecoder` -/

@[simp] theorem State.setDecoder_mode (s : State) (a k : Nat) : (s.setDecoder a k).mode = s.mode := rfl
@[simp] theorem State.setDecoder_cfgcnt (s : State) (a k : Nat) : (s.setDecoder a k).cfgcnt = s.cfgcnt := rfl
@[simp] theorem State.setDecoder_alpha (s : State) (a k : Nat) : (s.setDecoder a k).alpha = s.alpha := rfl
@[simp] theorem State.setDecoder_ridx (s : State) (a k : Nat) : (s.setDecoder a k).ridx = s.ridx := rfl
@[simp] theorem State.setDecoder_eacc (s : State) (a k : Nat) : (s.setDecoder a k).eacc = s.eacc := rfl
@[simp] theorem State.setDecoder_ecnt (s : State) (a k : Nat) : (s.setDecoder a k).ecnt = s.ecnt := rfl
@[simp] theorem State.setDecoder_dacc (s : State) (a k : Nat) : (s.setDecoder a k).dacc = BitVec.ofNat 7 a := rfl
@[simp] theorem State.setDecoder_dcnt (s : State) (a k : Nat) : (s.setDecoder a k).dcnt = BitVec.ofNat 3 k := rfl
@[simp] theorem State.setDecoder_derr (s : State) (a k : Nat) : (s.setDecoder a k).derr = s.derr := rfl
@[simp] theorem State.setDecoder_inp (s : State) (a k : Nat) : (s.setDecoder a k).inp = s.inp := rfl
@[simp] theorem State.setDecoder_rsp (s : State) (a k : Nat) : (s.setDecoder a k).rsp = s.rsp := rfl

/-! ### `State.writeFwd` -/

@[simp] theorem State.writeFwd_mode (s : State) (k : Nat) (h : k < 32) (c : Symbol) : (s.writeFwd k h c).mode = s.mode := rfl
@[simp] theorem State.writeFwd_cfgcnt (s : State) (k : Nat) (h : k < 32) (c : Symbol) : (s.writeFwd k h c).cfgcnt = s.cfgcnt := rfl
@[simp] theorem State.writeFwd_alpha (s : State) (k : Nat) (h : k < 32) (c : Symbol) : (s.writeFwd k h c).alpha = s.alpha.set k c h := rfl
@[simp] theorem State.writeFwd_ridx (s : State) (k : Nat) (h : k < 32) (c : Symbol) : (s.writeFwd k h c).ridx = s.ridx := rfl
@[simp] theorem State.writeFwd_eacc (s : State) (k : Nat) (h : k < 32) (c : Symbol) : (s.writeFwd k h c).eacc = s.eacc := rfl
@[simp] theorem State.writeFwd_ecnt (s : State) (k : Nat) (h : k < 32) (c : Symbol) : (s.writeFwd k h c).ecnt = s.ecnt := rfl
@[simp] theorem State.writeFwd_dacc (s : State) (k : Nat) (h : k < 32) (c : Symbol) : (s.writeFwd k h c).dacc = s.dacc := rfl
@[simp] theorem State.writeFwd_dcnt (s : State) (k : Nat) (h : k < 32) (c : Symbol) : (s.writeFwd k h c).dcnt = s.dcnt := rfl
@[simp] theorem State.writeFwd_derr (s : State) (k : Nat) (h : k < 32) (c : Symbol) : (s.writeFwd k h c).derr = s.derr := rfl
@[simp] theorem State.writeFwd_inp (s : State) (k : Nat) (h : k < 32) (c : Symbol) : (s.writeFwd k h c).inp = s.inp := rfl
@[simp] theorem State.writeFwd_rsp (s : State) (k : Nat) (h : k < 32) (c : Symbol) : (s.writeFwd k h c).rsp = s.rsp := rfl

/-! ### `State.writeRevAll` -/

@[simp] theorem State.writeRevAll_mode (s : State) : s.writeRevAll.mode = s.mode := by rw [State.writeRevAll]
@[simp] theorem State.writeRevAll_cfgcnt (s : State) : s.writeRevAll.cfgcnt = s.cfgcnt := by rw [State.writeRevAll]
@[simp] theorem State.writeRevAll_alpha (s : State) : s.writeRevAll.alpha = s.alpha := by rw [State.writeRevAll]
@[simp] theorem State.writeRevAll_ridx (s : State) : s.writeRevAll.ridx = reverseTable s.alpha := by rw [State.writeRevAll]
@[simp] theorem State.writeRevAll_eacc (s : State) : s.writeRevAll.eacc = s.eacc := by rw [State.writeRevAll]
@[simp] theorem State.writeRevAll_ecnt (s : State) : s.writeRevAll.ecnt = s.ecnt := by rw [State.writeRevAll]
@[simp] theorem State.writeRevAll_dacc (s : State) : s.writeRevAll.dacc = s.dacc := by rw [State.writeRevAll]
@[simp] theorem State.writeRevAll_dcnt (s : State) : s.writeRevAll.dcnt = s.dcnt := by rw [State.writeRevAll]
@[simp] theorem State.writeRevAll_derr (s : State) : s.writeRevAll.derr = s.derr := by rw [State.writeRevAll]
@[simp] theorem State.writeRevAll_inp (s : State) : s.writeRevAll.inp = s.inp := by rw [State.writeRevAll]
@[simp] theorem State.writeRevAll_rsp (s : State) : s.writeRevAll.rsp = s.rsp := by rw [State.writeRevAll]

/-! ### `State.consume` -/

@[simp] theorem State.consume_mode (s : State) : s.consume.mode = s.mode := rfl
@[simp] theorem State.consume_cfgcnt (s : State) : s.consume.cfgcnt = s.cfgcnt := rfl
@[simp] theorem State.consume_alpha (s : State) : s.consume.alpha = s.alpha := rfl
@[simp] theorem State.consume_ridx (s : State) : s.consume.ridx = s.ridx := rfl
@[simp] theorem State.consume_eacc (s : State) : s.consume.eacc = s.eacc := rfl
@[simp] theorem State.consume_ecnt (s : State) : s.consume.ecnt = s.ecnt := rfl
@[simp] theorem State.consume_dacc (s : State) : s.consume.dacc = s.dacc := rfl
@[simp] theorem State.consume_dcnt (s : State) : s.consume.dcnt = s.dcnt := rfl
@[simp] theorem State.consume_derr (s : State) : s.consume.derr = s.derr := rfl
@[simp] theorem State.consume_inp (s : State) : s.consume.inp = s.inp.tail := rfl
@[simp] theorem State.consume_rsp (s : State) : s.consume.rsp = s.rsp := rfl

/-! ### `State.push` -/

@[simp] theorem State.push_mode (s : State) (es : List Input) : (s.push es).mode = s.mode := rfl
@[simp] theorem State.push_cfgcnt (s : State) (es : List Input) : (s.push es).cfgcnt = s.cfgcnt := rfl
@[simp] theorem State.push_alpha (s : State) (es : List Input) : (s.push es).alpha = s.alpha := rfl
@[simp] theorem State.push_ridx (s : State) (es : List Input) : (s.push es).ridx = s.ridx := rfl
@[simp] theorem State.push_eacc (s : State) (es : List Input) : (s.push es).eacc = s.eacc := rfl
@[simp] theorem State.push_ecnt (s : State) (es : List Input) : (s.push es).ecnt = s.ecnt := rfl
@[simp] theorem State.push_dacc (s : State) (es : List Input) : (s.push es).dacc = s.dacc := rfl
@[simp] theorem State.push_dcnt (s : State) (es : List Input) : (s.push es).dcnt = s.dcnt := rfl
@[simp] theorem State.push_derr (s : State) (es : List Input) : (s.push es).derr = s.derr := rfl
@[simp] theorem State.push_inp (s : State) (es : List Input) : (s.push es).inp = es ++ s.inp := rfl
@[simp] theorem State.push_rsp (s : State) (es : List Input) : (s.push es).rsp = s.rsp := rfl

/-! ### Updates written with other updates -/

@[simp] theorem State.emit_eq (s : State) (r : Response) : s.emit r = s.emits [r] := rfl

@[simp] theorem State.raise_decodeSymbolNotFound (s : State) : s.raise .decodeSymbolNotFound = s.setDerr := rfl

@[simp] theorem State.raise_invalidAlphabet (s : State) :
    s.raise .invalidAlphabet = { s with mode := .failed }.emits [.cdone .invalidAlphabet] := rfl

@[simp] theorem State.raise_illegalCommand (s : State) :
    s.raise .illegalCommand = s.emits [.fault .illegalCommand] := rfl

@[simp] theorem State.resetBlock_eq (s : State) :
    s.resetBlock = { State.reset with inp := s.inp, rsp := s.rsp } := rfl

@[simp] theorem State.emits_nil (s : State) : s.emits [] = s := by simp [State.emits]

@[simp] theorem State.push_nil (s : State) : s.push [] = s := rfl

theorem State.emits_eq (s : State) (rs : List Response) :
    s.emits rs = { s with rsp := s.rsp ++ rs.map Response.word } := rfl

end Sys2Proof.Machine
end

