-- ==== Sys2Proof/Laws/Ops.lean ====
section
/-! SUPPORT. For each shared operation, once, everything it can do. -/

namespace Sys2Proof.Machine

/-! ### Command words (spec/30_encoding.md R61) -/

@[simp] theorem opField_wordOf (op : BitVec 4) (d : BitVec 8) : opField (wordOf op d) = op := BitVec.extractLsb'_append_eq_left

@[simp] theorem dataField_wordOf (op : BitVec 4) (d : BitVec 8) : dataField (wordOf op d) = d := BitVec.extractLsb'_append_eq_right

/-- A word is its two fields. -/
theorem wordOf_fields (w : CmdWord) : wordOf (opField w) (dataField w) = w := by
  apply BitVec.eq_of_getLsbD_eq
  intro k hk
  simp only [wordOf, opField, dataField, BitVec.getLsbD_append, BitVec.getLsbD_extractLsb']
  split
  · simp [*]
  · rw [decide_eq_true (by omega : k - 8 < 4), Bool.true_and, Nat.add_sub_cancel' (by omega)]

/-! ### Response words (spec/30_encoding.md R70, R71) -/

@[simp] theorem kindField_word (r : Response) : kindField r.word = r.kind := BitVec.extractLsb'_append_eq_left

@[simp] theorem rspData_word (r : Response) : rspData r.word = r.data := BitVec.extractLsb'_append_eq_right

/-- A 12-bit word from a kind and its data is their sum, as R71 writes it. -/
theorem append_eq_add (k : BitVec 4) (d : BitVec 8) : k ++ d = BitVec.ofNat 12 (256 * k.toNat) + d.setWidth 12 := by
  apply BitVec.eq_of_toNat_eq
  have hk := k.isLt
  have hd := d.isLt
  rw [BitVec.toNat_append, ← Nat.shiftLeft_add_eq_or_of_lt hd, Nat.shiftLeft_eq, BitVec.toNat_add, BitVec.toNat_ofNat,
    BitVec.toNat_setWidth]
  omega

theorem word_esym (s : Symbol) : (Response.esym s).word = 0x300 + s.setWidth 12 := append_eq_add 3 s

theorem word_dbyte (b : Byte) : (Response.dbyte b).word = 0x500 + b.setWidth 12 := append_eq_add 5 b

theorem word_cdone_ok : (Response.cdone .ok).word = 0x200 := rfl

theorem word_cdone_invalid : (Response.cdone .invalidAlphabet).word = 0x202 := rfl

theorem word_edone : (Response.edone .ok).word = 0x400 := rfl

theorem word_ddone_ok : (Response.ddone .ok).word = 0x600 := rfl

theorem word_ddone_error : (Response.ddone .decodeSymbolNotFound).word = 0x601 := rfl

theorem word_fault : (Response.fault .illegalCommand).word = 0xF03 := rfl

/-! ### The log observed (spec/43_decode_commands.md R133) -/

@[simp] theorem closedTransactions_nil (item close : BitVec 4) (p : List (BitVec 8)) : closedTransactions item close p [] = [] := rfl

/-- The words of one whole transaction close it with their data, and nothing stays open. -/
theorem closedTransactions_transaction {item close : BitVec 4} (h : close ≠ item) (p xs : List (BitVec 8)) (st : BitVec 8)
    (l : List RspWord) :
    closedTransactions item close p (xs.map (fun x => item ++ x) ++ (close ++ st) :: l) =
      (p ++ xs, st) :: closedTransactions item close [] l := by
  have hk (k : BitVec 4) (x : BitVec 8) : kindField (k ++ x) = k := BitVec.extractLsb'_append_eq_left
  have hd (k : BitVec 4) (x : BitVec 8) : rspData (k ++ x) = x := BitVec.extractLsb'_append_eq_right
  induction xs generalizing p with
  | nil => simp [closedTransactions, hk, hd, h]
  | cons x xs ih => simp [closedTransactions, hk, hd, ih]

/-- Words that are neither the lane's nor a `CDONE` do not matter to a lane's transactions. -/
theorem closedTransactions_filter {item close : BitVec 4} {l : List RspWord} (h : ∀ w ∈ l, kindField w ≠ 0x2)
    (p : List (BitVec 8)) :
    closedTransactions item close p l =
      closedTransactions item close p (l.filter fun w => kindField w == item || kindField w == close) := by
  induction l generalizing p with
  | nil => rfl
  | cons w l ih =>
    have ih := ih fun v hv => h v (.tail w hv)
    have hw := h w (.head l)
    by_cases hi : kindField w = item
    · simp [closedTransactions, hi, ih]
    · by_cases hc : kindField w = close
      · simp [closedTransactions, hc, ih]
      · rw [closedTransactions, if_neg hi, if_neg hc, if_neg hw]
        simp [hi, hc, ih]

/-- A decode call that ended well is its bytes. -/
theorem decodeOutcomes_ok (M : List Byte) (l : List RspWord) :
    decodeOutcomes (M.map (fun b => 0x500 + b.setWidth 12) ++ 0x600 :: l) = .ok M :: decodeOutcomes l := by
  have hw : (fun b : Byte => 0x500 + b.setWidth 12) = fun b => (0x5 : BitVec 4) ++ b := funext fun b => (word_dbyte b).symm
  rw [decodeOutcomes, hw]
  exact congrArg (List.map _) (closedTransactions_transaction (item := 5) (close := 6) (by decide) [] M 0 l)

/-- A decode call that failed is the error alone: its bytes are void. -/
theorem decodeOutcomes_error (M : List Byte) (l : List RspWord) :
    decodeOutcomes (M.map (fun b => 0x500 + b.setWidth 12) ++ 0x601 :: l) = .symbolNotFound :: decodeOutcomes l := by
  have hw : (fun b : Byte => 0x500 + b.setWidth 12) = fun b => (0x5 : BitVec 4) ++ b := funext fun b => (word_dbyte b).symm
  rw [decodeOutcomes, hw]
  exact congrArg (List.map _) (closedTransactions_transaction (item := 5) (close := 6) (by decide) [] M 1 l)

/-- An encode call is its symbols. -/
theorem encodeOutcomes_token (T : List Symbol) (l : List RspWord) :
    encodeOutcomes (T.map (fun c => 0x300 + c.setWidth 12) ++ 0x400 :: l) = T :: encodeOutcomes l := by
  have hw : (fun c : Symbol => 0x300 + c.setWidth 12) = fun c => (0x3 : BitVec 4) ++ c := funext fun c => (word_esym c).symm
  rw [encodeOutcomes, hw]
  exact congrArg (List.map _) (closedTransactions_transaction (item := 3) (close := 4) (by decide) [] T 0 l)

/-! ### The bit buffer (spec/42_encode_commands.md R120, 43_decode_commands.md R130) -/

theorem appendBits_eq {n v : Nat} (acc : Nat) (h : v < 2 ^ n) : appendBits acc n v = acc * 2 ^ n + v := by
  rw [appendBits, ← Nat.shiftLeft_add_eq_or_of_lt h, Nat.shiftLeft_eq]

theorem appendBits_lt {n v acc cnt : Nat} (ha : acc < 2 ^ cnt) (h : v < 2 ^ n) : appendBits acc n v < 2 ^ (cnt + n) := by
  rw [appendBits_eq acc h, Nat.pow_add]
  nlinarith

/-- Groups read as one number, first group most significant. -/
def natOfGroups (width : Nat) (gs : List Nat) : Nat := gs.foldl (fun v g => v * 2 ^ width + g) 0

theorem natOfGroups_foldl (width : Nat) (gs : List Nat) (v : Nat) :
    gs.foldl (fun v g => v * 2 ^ width + g) v = v * 2 ^ (width * gs.length) + natOfGroups width gs := by
  induction gs generalizing v with
  | nil => simp [natOfGroups]
  | cons g gs ih =>
    simp only [List.foldl_cons, List.length_cons, natOfGroups]
    rw [ih, ih (0 * 2 ^ width + g), Nat.mul_add, Nat.pow_add]
    ring

theorem natOfGroups_cons (width g : Nat) (gs : List Nat) :
    natOfGroups width (g :: gs) = g * 2 ^ (width * gs.length) + natOfGroups width gs := by
  rw [natOfGroups, List.foldl_cons, natOfGroups_foldl]
  ring

/-- Everything `drain` can do: with enough rounds it leaves fewer bits than a group has, no bit is lost or moved, and every group
fits its width. -/
theorem drain_spec {width : Nat} (hw : 0 < width) :
    ∀ (rounds acc cnt : Nat), acc < 2 ^ cnt → cnt < width * (rounds + 1) →
      let d := drain width rounds acc cnt
      d.cnt < width ∧ d.acc < 2 ^ d.cnt ∧ width * d.groups.length + d.cnt = cnt ∧
        natOfGroups width d.groups * 2 ^ d.cnt + d.acc = acc ∧ ∀ g ∈ d.groups, g < 2 ^ width
  | 0, acc, cnt, ha, hc => by simpa [drain, natOfGroups] using ⟨by omega, ha⟩
  | rounds + 1, acc, cnt, ha, hc => by
    by_cases h : width ≤ cnt
    · have hlt : acc % 2 ^ (cnt - width) < 2 ^ (cnt - width) := Nat.mod_lt _ (by positivity)
      have hcnt : cnt - width < width * (rounds + 1) := by rw [Nat.mul_succ] at hc; omega
      obtain ⟨h1, h2, h3, h4, h5⟩ := drain_spec hw rounds _ _ hlt hcnt
      have htop : acc / 2 ^ (cnt - width) < 2 ^ width := by
        apply Nat.div_lt_of_lt_mul
        rwa [← Nat.pow_add, Nat.sub_add_cancel h]
      simp only [drain, h, if_true, trunc, Nat.shiftRight_eq_div_pow, Nat.mod_eq_of_lt htop]
      refine ⟨h1, h2, ?_, ?_, ?_⟩
      · rw [List.length_cons, Nat.mul_succ]; omega
      · rw [natOfGroups_cons, Nat.add_mul, Nat.mul_assoc, ← Nat.pow_add, h3, Nat.add_assoc, h4]
        exact Nat.div_add_mod' acc (2 ^ (cnt - width))
      · intro g hg
        rcases List.mem_cons.mp hg with rfl | hg
        · exact htop
        · exact h5 g hg
    · simpa [drain, h, natOfGroups] using ⟨by omega, ha⟩

/-! ### The look-up tables (spec/20_memory.md R40, 40_codec_functions.md R91) -/

theorem readFwd_eq_getElem (s : State) (g : Group) : s.readFwd g = s.alpha[g.toNat]'g.isLt := rfl

/-- A found index holds the symbol. -/
theorem indexOf_some {alpha : Vector Symbol 32} {c : Symbol} {i : Group} (h : indexOf alpha c = some i) :
    alpha[i.toNat]'i.isLt = c := by
  obtain ⟨k, hk, rfl⟩ := Option.map_eq_some_iff.mp h
  rw [List.idxOf?, List.findIdx?_eq_some_iff_getElem] at hk
  obtain ⟨hlt, hc, -⟩ := hk
  simp only [Vector.length_toList] at hlt
  simpa [Nat.mod_eq_of_lt hlt] using hc

/-- No index is found exactly when no entry is the symbol. -/
theorem indexOf_eq_none {alpha : Vector Symbol 32} {c : Symbol} :
    indexOf alpha c = none ↔ ∀ i : Group, alpha[i.toNat]'i.isLt ≠ c := by
  rw [indexOf, Option.map_eq_none_iff, List.idxOf?, List.findIdx?_eq_none_iff]
  simp only [beq_eq_false_iff_ne]
  constructor
  · intro h i
    exact h _ (by simp [Vector.mem_toList_iff])
  · intro h x hx
    obtain ⟨k, hk, rfl⟩ := List.mem_iff_getElem.mp hx
    simp only [Vector.length_toList] at hk
    simpa [Nat.mod_eq_of_lt hk] using h (BitVec.ofNat 5 k)

/-- Distinct entries, as the rules write it and as the validity check computes it. -/
theorem pairwiseDistinct_iff_nodup (alpha : Vector Symbol 32) : PairwiseDistinct alpha ↔ alpha.toList.Nodup := by
  rw [List.Nodup, List.pairwise_iff_getElem]
  simp only [Vector.length_toList, Vector.getElem_toList]
  exact ⟨fun h i j _ hj hij => h i j hj hij, fun h i j hj hij => h i j (by omega) hj hij⟩

/-- In a distinct alphabet the found index is the only one. -/
theorem indexOf_eq_some_iff {alpha : Vector Symbol 32} (hd : PairwiseDistinct alpha) {c : Symbol} {i : Group} :
    indexOf alpha c = some i ↔ alpha[i.toNat]'i.isLt = c := by
  refine ⟨indexOf_some, fun h => ?_⟩
  cases hj : indexOf alpha c with
  | none => exact absurd h (indexOf_eq_none.mp hj i)
  | some j =>
    have hjc := indexOf_some hj
    rcases Nat.lt_trichotomy i.toNat j.toNat with hlt | heq | hgt
    · exact absurd (h.trans hjc.symm) (hd _ _ j.isLt hlt)
    · rw [BitVec.eq_of_toNat_eq heq]
    · exact absurd (hjc.trans h.symm) (hd _ _ i.isLt hgt)

/-- Every entry of the table that `CFG.COMMIT` builds. -/
theorem getElem_reverseTable (alpha : Vector Symbol 32) (c : Symbol) :
    (reverseTable alpha)[c.toNat]'c.isLt =
      match indexOf alpha c with
      | some i => ⟨true, i⟩
      | none => ⟨false, 0⟩ := by
  cases h : indexOf alpha c <;> simp [reverseTable, h]

/-- Everything a reverse look-up can answer. -/
theorem lookupRev_eq_some {s : State} {c : Symbol} {i : Group} :
    s.lookupRev c = some i ↔ s.readRev c = ⟨true, i⟩ := by
  rw [State.lookupRev]
  cases h : s.readRev c with
  | mk v j => cases v <;> simp

/-! ### Legality and events (spec/30_encoding.md R64, 60_exceptions.md R142, R145) -/

/-- Everything `whenLegal` can do. -/
theorem whenLegal_eq (s : State) (i : Instr) (effect : Host.Outcome State Fault Refusal) :
    (legalIn i s.mode = true ∧ s.whenLegal i effect = effect) ∨
      (legalIn i s.mode = false ∧ s.whenLegal i effect = .next (s.emits [.fault .illegalCommand])) := by
  cases h : legalIn i s.mode <;> simp [State.whenLegal, h]

/-! ### What each command can answer -/

theorem execCfgSym_next {c : Symbol} {s t : State} (h : execCfgSym c s = .next t) :
    (s.mode ≠ .config ∧ t = s.emits [.fault .illegalCommand]) ∨
      (s.mode = .config ∧ s.cfgcnt.toNat < 33 ∧ t = { s.offerSymbol c with cfgcnt := s.cfgcnt + 1 }) ∨
      (s.mode = .config ∧ s.cfgcnt.toNat = 33 ∧ t = s) := by
  rcases whenLegal_eq s (.cfgSym c) _ with ⟨hl, he⟩ | ⟨hl, he⟩ <;> rw [execCfgSym, he] at h
  · right
    have hm : s.mode = .config := by simpa [legalIn] using hl
    split at h <;> try contradiction
    split at h
    · exact .inl ⟨hm, ‹_›, by simpa using h.symm⟩
    · exact .inr ⟨hm, by simp only [State.CfgcntLegal] at *; omega, by simpa using h.symm⟩
  · exact .inl ⟨by simpa [legalIn] using hl, by simpa using h.symm⟩

theorem execCfgCommit_next {s t : State} (h : execCfgCommit s = .next t) :
    (s.mode ≠ .config ∧ t = s.emits [.fault .illegalCommand]) ∨
      (s.mode = .config ∧ s.CfgcntLegal ∧ validAlphabet s.cfgcnt s.alpha = true ∧
        t = { s.writeRevAll with mode := .ready }.emits [.cdone .ok]) ∨
      (s.mode = .config ∧ s.CfgcntLegal ∧ validAlphabet s.cfgcnt s.alpha = false ∧
        t = { s with mode := .failed }.emits [.cdone .invalidAlphabet]) := by
  rcases whenLegal_eq s .cfgCommit _ with ⟨hl, he⟩ | ⟨hl, he⟩ <;> rw [execCfgCommit, he] at h
  · right
    have hm : s.mode = .config := by simpa [legalIn] using hl
    split at h <;> try contradiction
    split at h
    · exact .inl ⟨hm, ‹_›, ‹_›, by simpa using h.symm⟩
    · exact .inr ⟨hm, ‹_›, Bool.eq_false_iff.mpr ‹¬validAlphabet _ _ = true›, by simpa using h.symm⟩
  · exact .inl ⟨by simpa [legalIn] using hl, by simpa using h.symm⟩

theorem execEncPut_next {b : Byte} {s t : State} (h : execEncPut b s = .next t) :
    (s.mode ≠ .ready ∧ t = s.emits [.fault .illegalCommand]) ∨
      (s.mode = .ready ∧ s.EncoderLegal ∧
        t = (s.setEncoder (s.encoderBuffer b).acc (s.encoderBuffer b).cnt).emits
          ((s.encoderBuffer b).groups.map s.symbolOf)) := by
  rcases whenLegal_eq s (.encPut b) _ with ⟨hl, he⟩ | ⟨hl, he⟩ <;> rw [execEncPut, he] at h
  · split at h <;> try contradiction
    exact .inr ⟨by simpa [legalIn] using hl, ‹_›, by simpa using h.symm⟩
  · exact .inl ⟨by simpa [legalIn] using hl, by simpa using h.symm⟩

theorem execEncEnd_next {s t : State} (h : execEncEnd s = .next t) :
    (s.mode ≠ .ready ∧ t = s.emits [.fault .illegalCommand]) ∨
      (s.mode = .ready ∧ s.EncoderLegal ∧
        t = (s.setEncoder 0 0).emits (s.paddedGroup.map s.symbolOf ++ [.edone .ok])) := by
  rcases whenLegal_eq s .encEnd _ with ⟨hl, he⟩ | ⟨hl, he⟩ <;> rw [execEncEnd, he] at h
  · split at h <;> try contradiction
    exact .inr ⟨by simpa [legalIn] using hl, ‹_›, by simpa using h.symm⟩
  · exact .inl ⟨by simpa [legalIn] using hl, by simpa using h.symm⟩

theorem execDecPut_next {c : Symbol} {s t : State} (h : execDecPut c s = .next t) :
    (s.mode ≠ .ready ∧ t = s.emits [.fault .illegalCommand]) ∨
      (s.mode = .ready ∧ s.derr = true ∧ t = s) ∨
      (s.mode = .ready ∧ s.derr = false ∧ s.lookupRev c = none ∧ t = s.setDerr) ∨
      (s.mode = .ready ∧ s.derr = false ∧ s.DecoderLegal ∧ ∃ i, s.lookupRev c = some i ∧
        t = (s.setDecoder (s.decoderBuffer i).acc (s.decoderBuffer i).cnt).emits ((s.decoderBuffer i).groups.map byteOf)) := by
  rcases whenLegal_eq s (.decPut c) _ with ⟨hl, he⟩ | ⟨hl, he⟩ <;> rw [execDecPut, he] at h
  · right
    have hm : s.mode = .ready := by simpa [legalIn] using hl
    split at h
    · exact .inl ⟨hm, ‹_›, by simpa using h.symm⟩
    · have hd : s.derr = false := by simpa using ‹¬s.derr = true›
      split at h
      · exact .inr (.inl ⟨hm, hd, ‹_›, by simpa using h.symm⟩)
      · split at h <;> try contradiction
        exact .inr (.inr ⟨hm, hd, ‹_›, _, ‹_›, by simpa using h.symm⟩)
  · exact .inl ⟨by simpa [legalIn] using hl, by simpa using h.symm⟩

theorem execDecEnd_next {s t : State} (h : execDecEnd s = .next t) :
    (s.mode ≠ .ready ∧ t = s.emits [.fault .illegalCommand]) ∨
      (s.mode = .ready ∧ t = s.clearDecoder.emits [.ddone (if s.derr then .decodeSymbolNotFound else .ok)]) := by
  rcases whenLegal_eq s .decEnd _ with ⟨hl, he⟩ | ⟨hl, he⟩ <;> rw [execDecEnd, he] at h
  · exact .inr ⟨by simpa [legalIn] using hl, by simpa using h.symm⟩
  · exact .inl ⟨by simpa [legalIn] using hl, by simpa using h.symm⟩

/-! ### Steps and runs -/

/-- Everything a step can do. -/
theorem step_next {s t : State} (h : step s = .next t) :
    (s.inp = [] ∧ t = s) ∨
      (∃ rest, s.inp = .reset :: rest ∧ t = { s with inp := rest }.resetBlock) ∨
      (∃ w rest, s.inp = .cmd w :: rest ∧ decodeWord w = none ∧ t = { s with inp := rest }.emits [.fault .illegalCommand]) ∨
      (∃ w rest i, s.inp = .cmd w :: rest ∧ decodeWord w = some i ∧ exec i { s with inp := rest } = .next t) := by
  rw [step, State.fetch] at h
  cases hi : s.inp with
  | nil => exact .inl ⟨rfl, by simpa [hi] using h.symm⟩
  | cons e rest =>
    have hc : s.consume = { s with inp := rest } := by simp [State.consume, hi]
    cases e with
    | reset => exact .inr (.inl ⟨rest, rfl, by simpa [hi, hc] using h.symm⟩)
    | cmd w =>
      cases hd : decodeWord w with
      | none => exact .inr (.inr (.inl ⟨w, rest, rfl, hd, by simpa [hi, hc, hd] using h.symm⟩))
      | some i => exact .inr (.inr (.inr ⟨w, rest, i, rfl, hd, by simpa [hi, hc, hd] using h⟩))

theorem run_zero (s : State) : run 0 s = .next s := rfl

/-- A run of `m + n` steps is a run of `n` steps after a run of `m`. -/
theorem run_add {m n : Nat} {s t : State} (h : run m s = .next t) : run (m + n) s = run n t := by
  induction m generalizing s with
  | zero =>
    rw [run_zero, Host.Outcome.next.injEq] at h
    rw [h, Nat.zero_add]
  | succ m ih =>
    rw [Nat.add_right_comm, run]
    rw [run] at h
    cases hs : step s with
    | next u => simp only [hs] at h ⊢; exact ih h
    | fault f => exact nomatch f
    | refused r => simp [hs] at h

end Sys2Proof.Machine
end

