-- ==== Sys2Proof/Laws/PerInstr.lean ====
section
/-! SUPPORT. A fact about every instruction as syntax, made instruction by instruction: its word lies in its own row of the opcode map
(spec/30_encoding.md R62) and is well-formed. -/

namespace Sys2Proof.Laws.OpcodeRow

/-- The word of an instruction matches the row of its mnemonic under the row's mask. -/
def Statement (i : Instr) : Prop :=
  encode i &&& i.row.mask = i.row.pattern ∧ i.row ∈ opcodeMap ∧ wellFormedWord (encode i) = true

theorem word_in_row (op : BitVec 4) (d : BitVec 8) : wordOf op d &&& 0xF00 = wordOf op 0 := by
  apply BitVec.eq_of_getLsbD_eq
  intro k hk
  simp only [wordOf, BitVec.getLsbD_and, BitVec.getLsbD_append]
  by_cases h : k < 8
  · interval_cases k <;> simp
  · have h12 : k = 8 ∨ k = 9 ∨ k = 10 ∨ k = 11 := by omega
    rcases h12 with rfl | rfl | rfl | rfl <;> simp

/-- A row that covers a word makes the word well-formed. -/
theorem wellFormed_of_row {r : Row} {w : CmdWord} (hr : r ∈ opcodeMap) (h : w &&& r.mask = r.pattern) :
    wellFormedWord w = true :=
  List.any_eq_true.mpr ⟨r, hr, by simp [Row.covers, h]⟩

theorem of_covers {i : Instr} (h : encode i &&& i.row.mask = i.row.pattern) (hr : i.row ∈ opcodeMap) : Statement i :=
  ⟨h, hr, wellFormed_of_row hr h⟩

theorem cfgSym (s : Symbol) : Statement (.cfgSym s) := of_covers (word_in_row 1 s) (by simp [opcodeMap, Instr.row])

theorem cfgCommit : Statement .cfgCommit := of_covers (by decide) (by decide)

theorem encPut (b : Byte) : Statement (.encPut b) := of_covers (word_in_row 3 b) (by simp [opcodeMap, Instr.row])

theorem encEnd : Statement .encEnd := of_covers (by decide) (by decide)

theorem decPut (s : Symbol) : Statement (.decPut s) := of_covers (word_in_row 5 s) (by simp [opcodeMap, Instr.row])

theorem decEnd : Statement .decEnd := of_covers (by decide) (by decide)

end Sys2Proof.Laws.OpcodeRow
end

