-- ==== Sys2Proof/Tests/Slice0.lean ====
section
/-! SUPPORT. Tests: words written out from spec/30_encoding.md R62, single steps with the results that the spec's examples and
spec/95_test_vectors.md give, and for every statement with hypotheses a state that meets them. -/

namespace Sys2Proof.Tests

open Sys2Proof.Machine

/-- The state a step answers, if it answers one. -/
def after : Host.Outcome State Fault Refusal → Option State
  | .next s => some s
  | .fault _ => none
  | .refused _ => none

/-- `READY` with the default alphabet and both lanes idle. -/
def ready : State := { State.reset with mode := .ready, ridx := reverseTable Config.defaultAlphabet }

/-- `READY`, the decoder lane holding the index bits `d`. -/
def decoding (d : BitVec 7) (k : BitVec 3) : State := { ready with dacc := d, dcnt := k }

/-- `READY`, the encoder lane holding the message bits `e`. -/
def encoding (e : BitVec 4) (k : BitVec 3) : State := { ready with eacc := e, ecnt := k }

/-! ### Decoding: one word of every row, and one reserved word of every class of R65 -/

theorem test_decode_cfgSym : decodeWord 0b000101000001 = some (.cfgSym 0x41) := by decide +kernel
theorem test_decode_cfgCommit : decodeWord 0b001000000000 = some .cfgCommit := by decide +kernel
theorem test_decode_encPut : decodeWord 0b001110000001 = some (.encPut 0x81) := by decide +kernel
theorem test_decode_encEnd : decodeWord 0b010000000000 = some .encEnd := by decide +kernel
theorem test_decode_decPut : decodeWord 0b010100110011 = some (.decPut 0x33) := by decide +kernel
theorem test_decode_decEnd : decodeWord 0b011000000000 = some .decEnd := by decide +kernel
theorem test_encode_words : [Instr.cfgSym 0x41, .cfgCommit, .encPut 0x81, .encEnd, .decPut 0x33, .decEnd].map encode =
    [0x141, 0x200, 0x381, 0x400, 0x533, 0x600] := by decide +kernel
theorem test_illformed_op_zero : wellFormedWord 0x000 = false := by decide +kernel
theorem test_illformed_op_seven : wellFormedWord 0x7AB = false := by decide +kernel
theorem test_illformed_op_fifteen : wellFormedWord 0xFFF = false := by decide +kernel
theorem test_illformed_commit_data : wellFormedWord 0x201 = false := by decide +kernel
theorem test_illformed_encEnd_data : wellFormedWord 0x401 = false := by decide +kernel
theorem test_illformed_decEnd_data : wellFormedWord 0x680 = false := by decide +kernel
theorem test_table_word : decodeTableWord 16 0x3FF = some (.encPut 0xFF) ∧ decodeTableWord 16 0x1200 = none := by decide +kernel
theorem test_fetched_word_runs :
    (after (step (State.reset.withFetchWord 16 0x200))).map (fun s => (s.status, s.rsp)) = some (0x0001, [0x200]) := by decide +kernel

/-! ### The constants (10_state.md R22: the string of the default alphabet) -/

theorem test_default_alphabet_text :
    "1bcd2fgh3jklmn4pqrstAvwxyz567890".toList.mapM asciiCode = some Config.defaultAlphabet.toList := by decide +kernel

/-! ### Single steps (the examples of R110 to R132 and of 95_test_vectors.md 2.5 to 2.9) -/

theorem test_cfgSym_first :
    (after (exec (.cfgSym 0x41) State.reset)).map (fun s => (s.alpha[0], s.alpha[1], s.status, s.rsp)) =
      some (0x41, 0x62, 0x0200, []) := by decide +kernel
theorem test_cfgSym_thirty_third :
    (after (exec (.cfgSym 0x41) { State.reset with cfgcnt := 32 })).map (fun s => (s.alpha[0], s.alpha[31], s.cfgcnt)) =
      some (0x31, 0x30, 33) := by decide +kernel
theorem test_cfgCommit_default :
    (after (exec .cfgCommit State.reset)).map (fun s => (s.status, s.rsp, s.readRev 0x33, s.readRev 0x61)) =
      some (0x0001, [0x200], ⟨true, 8⟩, ⟨false, 0⟩) := by decide +kernel
theorem test_cfgCommit_one_symbol :
    (after (exec .cfgCommit { State.reset with cfgcnt := 1 })).map (fun s => (s.status, s.rsp)) =
      some (0x0202, [0x202]) := by decide +kernel
theorem test_encPut_first :
    (after (exec (.encPut 0x41) ready)).map (fun s => (s.status, s.eacc, s.rsp)) = some (0x0019, 1, [0x333]) := by decide +kernel
theorem test_encPut_two_symbols :
    (after (exec (.encPut 0x61) (encoding 0b0010 4))).map (fun s => (s.status, s.eacc, s.rsp)) =
      some (0x0011, 1, [0x332, 0x379]) := by decide +kernel
theorem test_encEnd_pads :
    (after (exec .encEnd (encoding 1 3))).map (fun s => (s.status, s.rsp)) = some (0x0001, [0x332, 0x400]) := by decide +kernel
theorem test_encEnd_idle : (after (exec .encEnd ready)).map (fun s => (s.status, s.rsp)) = some (0x0001, [0x400]) := by decide +kernel
theorem test_decPut_emits :
    (after (exec (.decPut 0x32) (decoding 0b01000 5))).map (fun s => (s.status, s.dacc, s.rsp)) =
      some (0x0081, 0, [0x541]) := by decide +kernel
theorem test_decPut_foreign_is_not_index_zero :
    (after (exec (.decPut 0x21) (decoding 0b01 2))).map (fun s => (s.status, s.dacc, s.rsp)) = some (0x0085, 1, []) := by decide +kernel
theorem test_decEnd_drops_slack :
    (after (exec .decEnd (decoding 0b01000 5))).map (fun s => (s.status, s.dacc, s.rsp)) = some (0x0001, 0, [0x600]) := by decide +kernel
theorem test_decEnd_reports :
    (after (exec .decEnd { ready with derr := true })).map (fun s => (s.status, s.rsp)) = some (0x0001, [0x601]) := by decide +kernel
theorem test_refused_in_ready :
    (after (exec (.cfgSym 0x41) ready)).map (fun s => (s.alpha[0], s.status, s.rsp)) = some (0x31, 0x0001, [0xF03]) := by decide +kernel
theorem test_reset_abandons :
    (after (step ({ encoding 0 1 with derr := true, rsp := [0x333] }.push [.reset]))).map (fun s => (s.status, s.rsp)) =
      some (0x0000, [0x333]) := by decide +kernel

/-! ### The codec and the notation (95_test_vectors.md V1, T23; 30_encoding.md R76) -/

/-- The default alphabet is valid. -/
def defaultAlphabet : Alphabet := ⟨Config.defaultAlphabet, by decide +kernel⟩

theorem test_encode_Atrapalo :
    some (defaultAlphabet.encode [0x41, 0x74, 0x72, 0x61, 0x70, 0x61, 0x6C, 0x6F]) =
      "3f5h2ylqmfwg9".toList.mapM asciiCode := by decide +kernel
theorem test_decode_Atrapalo :
    ("3f5h2ylqmfwg9".toList.mapM asciiCode).map defaultAlphabet.decode =
      some (.ok [0x41, 0x74, 0x72, 0x61, 0x70, 0x61, 0x6C, 0x6F]) := by decide +kernel
theorem test_decode_is_case_sensitive : defaultAlphabet.decode [0x33, 0x46] = .symbolNotFound := by decide +kernel
theorem test_assemble :
    assemble ["ALPHABET ; 200".toList, "ENCODE \"At\"".toList, "DEC.PUT ';' ; 53B".toList, ".reset".toList] =
      some [.cmd 0x200, .cmd 0x341, .cmd 0x374, .cmd 0x400, .cmd 0x53B, .reset] := by decide +kernel
theorem test_number_forms : ["65", "0x41", "0b01000001", "0b11111111", "0"].map (fun t => numberOf t.toList) =
    [some 65, some 0x41, some 0x41, some 255, some 0] := by decide +kernel
theorem test_assemble_refuses : assemble ["ENC.PUT 256".toList] = none ∧ assemble ["ENC.PUT 0b2".toList] = none ∧
    assemble ["ENC.PUT 0b".toList] = none ∧ assemble ["enc.end".toList] = none := by decide +kernel
/-- The choice of assumption 6: no blank before a quote. -/
theorem test_assemble_quote_without_blank : assemble ["ENC.PUT'A'".toList] = some [.cmd 0x341] := by decide +kernel

/-! ### The log observed (95_test_vectors.md P2 and P6) -/

theorem test_observe_P2 :
    decodeOutcomes [0x200, 0x541, 0x574, 0x600, 0x541, 0x601, 0x541, 0x600] = [.ok [0x41, 0x74], .symbolNotFound, .ok [0x41]] := by
  decide +kernel
theorem test_observe_abandoned :
    encodeOutcomes [0x200, 0x333, 0x366, 0x335, 0x200, 0x400] = [[]] ∧ decodeOutcomes [0x200, 0x541, 0x200, 0x600] = [.ok []] := by
  decide +kernel

/-! ### States that meet the hypotheses of the statements -/

theorem default_distinct : PairwiseDistinct Config.defaultAlphabet :=
  (pairwiseDistinct_iff_nodup _).mpr defaultAlphabet.distinct

/-- A state whose reverse table was built from a distinct alphabet holds its exact inverse. -/
theorem inverse_of_built {s : State} (hd : PairwiseDistinct s.alpha) (hr : s.ridx = reverseTable s.alpha) : s.RidxInverse where
  found c i := by
    rw [State.readRev]
    simp only [hr, getElem_reverseTable]
    cases h : indexOf s.alpha c with
    | none => simpa [readFwd_eq_getElem] using indexOf_eq_none.mp h i
    | some j =>
      rw [readFwd_eq_getElem, ← indexOf_eq_some_iff hd, h]
      simp
  foreign c h := by
    rw [State.readRev]
    simp only [hr, getElem_reverseTable, indexOf_eq_none.mpr h]

theorem ready_inverse : ready.RidxInverse := inverse_of_built default_distinct rfl

/-- A lane state in `READY` with the default alphabet meets the invariants when its residuals and flag are legal. -/
theorem ready_inv {s : State} (hm : s.mode = .ready) (hc : s.cfgcnt = 0) (ha : s.alpha = Config.defaultAlphabet)
    (hr : s.ridx = reverseTable Config.defaultAlphabet) (he : s.EncoderLegal) (hd : s.DecoderLegal) : s.Inv where
  cfgcnt_legal := by simp [State.CfgcntLegal, hc]
  encoder_legal := he
  decoder_legal := hd
  encoder_idle h := absurd hm h
  decoder_idle h := absurd hm h
  ready_distinct _ := by rw [ha]; exact default_distinct
  ready_count _ := .inl hc
  ready_inverse _ := inverse_of_built (by rw [ha]; exact default_distinct) (by rw [hr, ha])
  ready_default _ _ := ha
  config_unwritten h := by rw [hm] at h; cases h

theorem ready_meets_inv : ready.Inv := ready_inv rfl rfl rfl rfl (by decide +kernel) (by decide +kernel)

theorem witness_ReservedWordsAreRefused :
    (∀ w : CmdWord, (State.reset.push [.cmd w]).inp = [.cmd w]) ∧
      decodeWord 0x000 = none ∧ decodeWord 0x0FF = none ∧ decodeWord 0x700 = none ∧ decodeWord 0xFFF = none ∧
      decodeWord 0x201 = none ∧ decodeWord 0x4FF = none ∧ decodeWord 0x601 = none :=
  ⟨fun _ => rfl, by decide +kernel⟩
theorem witness_LegalityByMode :
    (¬((((∃ c, Instr.encPut 0x41 = .cfgSym c) ∨ Instr.encPut 0x41 = .cfgCommit) ∧ State.reset.mode = .config) ∨
        (((Instr.encPut 0x41).isEncoder = true ∨ (Instr.encPut 0x41).isDecoder = true) ∧ State.reset.mode = .ready))) ∧
    (((Instr.encPut 0x41).isEncoder = true ∨ (Instr.encPut 0x41).isDecoder = true) ∧ ready.mode = .ready) ∧
    (((∃ c, Instr.cfgSym 0 = .cfgSym c) ∨ Instr.cfgSym 0 = .cfgCommit) ∧ State.reset.mode = .config) ∧
    (after (exec (.encPut 0x41) ready)).isSome = true ∧ (after (exec (.cfgSym 0) State.reset)).isSome = true := by
  exact ⟨by simp [Instr.isEncoder, State.reset], by decide +kernel, ⟨.inl ⟨0, rfl⟩, rfl⟩, by decide +kernel, by decide +kernel⟩
theorem witness_DecodeCmdDecidesTheStep :
    (ready.push [.cmd 0x341]).inp = [.cmd 0x341] ∧ decodeCmd 0x341 .ready = some (.encPut 0x41) ∧
      (State.reset.push [.cmd 0x341]).inp = [.cmd 0x341] ∧ decodeCmd 0x341 .config = none := by decide +kernel
theorem witness_StepRunsTheDecodedCommand :
    (ready.push [.cmd 0x341, .reset]).inp = [.cmd 0x341, .reset] ∧ decodeWord 0x341 = some (.encPut 0x41) := by decide +kernel
theorem witness_IdleStepHoldsTheState : ready.inp = [] := rfl
theorem witness_ResetStep : (ready.push [.reset, .cmd 0x200]).inp = [.reset, .cmd 0x200] := rfl
theorem witness_StatusLayout :
    ready.mode = .ready ∧ ready.EncoderIdle ∧ ready.DecoderIdle ∧ ready.cfgcnt = 0 ∧
      ({ ready with cfgcnt := 32 } : State).cfgcnt = 32 := ⟨rfl, ⟨rfl, rfl⟩, ⟨rfl, rfl, rfl⟩, rfl, rfl⟩
theorem witness_EveryStepKeepsTheInvariants : ready.Inv ∧ (after (step (ready.push [.cmd 0x341]))).isSome = true :=
  ⟨ready_meets_inv, by decide +kernel⟩
theorem witness_ReachableStatesMeetTheInvariants :
    (after (run 2 { State.reset with inp := [.cmd 0x200, .cmd 0x341] })).map (fun t => t.status) = some 0x0019 := by decide +kernel
theorem witness_TheBlockIsNeverStuck : ready.Inv := ready_meets_inv
theorem witness_ReverseTableIsUnobservableOutsideReady :
    State.reset.mode ≠ .ready ∧ (after (run 1 (State.reset.push [.cmd 0x200]))).map (fun t => t.mode) = some .ready ∧
      (after (run 1 (State.reset.push [.cmd 0x541]))).map (fun t => t.mode) = some .config := by decide +kernel
theorem witness_CommandsWriteOnlyTheirElements :
    (after (exec (.cfgSym 0) State.reset)).isSome = true ∧ (after (exec .cfgCommit State.reset)).isSome = true ∧
    (after (exec (.encPut 0) ready)).isSome = true ∧ (after (exec .encEnd ready)).isSome = true ∧
    (after (exec (.decPut 0) ready)).isSome = true ∧ (after (exec .decEnd ready)).isSome = true := by decide +kernel
theorem witness_EncoderReadsOnlyItsElements :
    (Instr.encPut 0x41).isEncoder = true ∧ (after (exec (.encPut 0x41) ready)).isSome = true ∧
      (decoding 3 2).mode = ready.mode ∧ (decoding 3 2).alpha = ready.alpha ∧ (decoding 3 2).eacc = ready.eacc ∧
      (decoding 3 2).ecnt = ready.ecnt := ⟨rfl, by decide +kernel, rfl, rfl, rfl, rfl⟩
theorem witness_DecoderReadsOnlyItsElements :
    (Instr.decPut 0x33).isDecoder = true ∧ (after (exec (.decPut 0x33) ready)).isSome = true ∧
      (encoding 1 3).mode = ready.mode ∧ (encoding 1 3).ridx = ready.ridx ∧ (encoding 1 3).dacc = ready.dacc ∧
      (encoding 1 3).dcnt = ready.dcnt ∧ (encoding 1 3).derr = ready.derr := ⟨rfl, by decide +kernel, rfl, rfl, rfl, rfl, rfl⟩
theorem witness_ModeTransitions :
    (after (step (State.reset.push [.cmd 0x200]))).map (fun t => t.mode) = some .ready ∧
    (after (step ({ State.reset with cfgcnt := 31 }.push [.cmd 0x200]))).map (fun t => t.mode) = some .failed ∧
    (after (step (ready.push [.reset]))).map (fun t => t.mode) = some .config ∧
    (after (step ready)).map (fun t => t.mode) = some .ready := by decide +kernel
theorem witness_ResponsesOfOneStep :
    (after (step (ready.push [.cmd 0x341]))).isSome = true ∧ Instr.decEnd.isDecoder = true ∧
    (after (exec .decEnd ready)).isSome = true ∧ (after (exec .cfgCommit State.reset)).isSome = true := by decide +kernel
theorem witness_CfgSymStoresTheNextSymbol :
    ready.mode ≠ .config ∧ State.reset.mode = .config ∧ State.reset.cfgcnt.toNat < 32 ∧
    ({ State.reset with cfgcnt := 31 } : State).cfgcnt.toNat < 32 ∧ ({ State.reset with cfgcnt := 32 } : State).mode = .config ∧
    ({ State.reset with cfgcnt := 33 } : State).mode = .config := by decide +kernel
theorem witness_CfgCommitValidatesBuildsAndLocks :
    ready.mode ≠ .config ∧ State.reset.mode = .config ∧ State.reset.cfgcnt.toNat ≤ 33 ∧
    ((State.reset.cfgcnt = 0 ∨ State.reset.cfgcnt = 32) ∧ PairwiseDistinct State.reset.alpha) ∧
    ((({ State.reset with cfgcnt := 32 } : State).cfgcnt = 0 ∨ ({ State.reset with cfgcnt := 32 } : State).cfgcnt = 32) ∧
      PairwiseDistinct ({ State.reset with cfgcnt := 32 } : State).alpha) ∧
    ¬((({ State.reset with cfgcnt := 33 } : State).cfgcnt = 0 ∨ ({ State.reset with cfgcnt := 33 } : State).cfgcnt = 32) ∧
      PairwiseDistinct ({ State.reset with cfgcnt := 33 } : State).alpha) ∧
    ({ State.reset with cfgcnt := 33 } : State).cfgcnt.toNat ≤ 33 := by
  refine ⟨by decide +kernel, rfl, by decide +kernel, ⟨.inl rfl, default_distinct⟩, ⟨.inr rfl, default_distinct⟩, ?_, by decide +kernel⟩
  rintro ⟨h, -⟩
  revert h
  decide
/-- 32 distinct symbols, the codes 0x40 to 0x5F. -/
def distinctSymbols : List Symbol :=
  [0x40, 0x41, 0x42, 0x43, 0x44, 0x45, 0x46, 0x47, 0x48, 0x49, 0x4A, 0x4B, 0x4C, 0x4D, 0x4E, 0x4F,
   0x50, 0x51, 0x52, 0x53, 0x54, 0x55, 0x56, 0x57, 0x58, 0x59, 0x5A, 0x5B, 0x5C, 0x5D, 0x5E, 0x5F]

theorem offered_distinctSymbols :
    (∀ w ∈ distinctSymbols.map (fun c => encode (.cfgSym c)), decodeWord w ≠ some .cfgCommit) ∧
      offeredSymbols (distinctSymbols.map fun c => encode (.cfgSym c)) = distinctSymbols := by
  refine ⟨fun w hw => ?_, by decide +kernel⟩
  obtain ⟨c, -, rfl⟩ := List.mem_map.mp hw
  simp [decodeWord, encode]
theorem witness_ConfigurationSequence :
    offeredSymbols [] = [] ∧
    (∀ w ∈ ([0x141, 0x341, 0x000] : List CmdWord), decodeWord w ≠ some .cfgCommit) ∧ offeredSymbols [0x141, 0x341, 0x000] = [0x41] ∧
    (offeredSymbols (distinctSymbols.map fun c => encode (.cfgSym c))).length = 32 ∧
    (offeredSymbols (distinctSymbols.map fun c => encode (.cfgSym c))).Nodup := by
  rw [offered_distinctSymbols.2]
  refine ⟨rfl, fun w hw => ?_, by decide +kernel, by decide +kernel, by decide +kernel⟩
  fin_cases hw <;> decide +kernel
theorem offeredSymbols_cfgSym (cs : List Symbol) : offeredSymbols (cs.map fun c => encode (.cfgSym c)) = cs := by
  simp [offeredSymbols, List.filterMap_map, decodeWord, encode]
/-- The boundaries of the third fate: 33 symbols, and 32 of which one stands twice. -/
theorem witness_ConfigurationSequence_fails :
    (∀ cs : List Symbol, ∀ w ∈ cs.map (fun c => encode (.cfgSym c)), decodeWord w ≠ some .cfgCommit) ∧
    (offeredSymbols ((0x60 :: distinctSymbols).map fun c => encode (.cfgSym c))).length = 33 ∧
    (offeredSymbols ((0x5F :: distinctSymbols.tail).map fun c => encode (.cfgSym c))).length = 32 ∧
    ¬(offeredSymbols ((0x5F :: distinctSymbols.tail).map fun c => encode (.cfgSym c))).Nodup := by
  simp only [offeredSymbols_cfgSym]
  refine ⟨fun cs w hw => ?_, by decide +kernel, by decide +kernel, by decide +kernel⟩
  obtain ⟨c, -, rfl⟩ := List.mem_map.mp hw
  simp [decodeWord, encode]
theorem witness_AlphabetIsFrozenInReady :
    ready.mode = .ready ∧ (after (send [0x141, 0x341] ready)).isSome = true := by decide +kernel
theorem witness_FailedRefusesEveryWord : ({ State.reset with mode := .failed } : State).mode = .failed := rfl
theorem witness_UnwrittenRegisterValuesAreRefused :
    ({ State.reset with cfgcnt := 34 } : State).mode = .config ∧ ¬({ State.reset with cfgcnt := 34 } : State).CfgcntLegal ∧
    (encoding 0 5).mode = .ready ∧ ¬(encoding 0 5).EncoderLegal ∧ ¬(encoding 1 0).EncoderLegal ∧
    (decoding 1 0).mode = .ready ∧ (decoding 1 0).derr = false ∧ ¬(decoding 1 0).DecoderLegal ∧
    ((decoding 1 0).readRev 0x33).valid = true := by decide +kernel
theorem witness_EncPutFollowsTheCaseTable :
    State.reset.mode ≠ .ready ∧ (encoding 0 0).mode = .ready ∧ (encoding 15 4).ecnt.toNat ≤ 4 ∧
    (encoding 15 4).eacc.toNat < 2 ^ (encoding 15 4).ecnt.toNat ∧ (encoding 0 0).eacc.toNat < 2 ^ (encoding 0 0).ecnt.toNat := by decide +kernel
theorem witness_EncEndFlushesThePaddedResidual :
    State.reset.mode ≠ .ready ∧ ready.mode = .ready ∧ ready.ecnt = 0 ∧ ready.eacc.toNat < 2 ^ ready.ecnt.toNat ∧
    (encoding 15 4).mode = .ready ∧ (encoding 15 4).ecnt ≠ 0 ∧ (encoding 15 4).ecnt.toNat ≤ 4 ∧
    (encoding 15 4).eacc.toNat < 2 ^ (encoding 15 4).ecnt.toNat := by decide +kernel
theorem witness_EncoderPhase :
    ready.mode = .ready ∧ ready.EncoderIdle ∧ (after (exec (.encPut 0x41) ready)).isSome = true ∧
    (after (exec (.encPut 0x41) (encoding 2 4))).isSome = true ∧ (after (exec .encEnd ready)).isSome = true ∧
    (after (exec .encEnd (encoding 2 4))).isSome = true :=
  ⟨rfl, ⟨rfl, rfl⟩, by decide +kernel, by decide +kernel, by decide +kernel, by decide +kernel⟩
theorem witness_EncoderLaneIsIndependent : ready.Inv ∧ ready.mode = .ready := ⟨ready_meets_inv, rfl⟩
theorem witness_EncoderTransaction :
    ready.Inv ∧ ready.mode = .ready ∧ ready.alpha = defaultAlphabet.codes ∧ ready.EncoderIdle ∧
    encoderCommands [0x000, 0x341, 0x533, 0x374, 0x141, 0x400] = [0x41, 0x74].map .encPut ++ [.encEnd] :=
  ⟨ready_meets_inv, rfl, rfl, ⟨rfl, rfl⟩, by decide +kernel⟩
theorem witness_DecPutFollowsTheCaseTable :
    State.reset.mode ≠ .ready ∧ ({ ready with derr := true } : State).mode = .ready ∧
    ready.mode = .ready ∧ ready.derr = false ∧ ready.RidxInverse ∧ ready.dacc.toNat < 2 ^ ready.dcnt.toNat ∧
    (∀ i : Group, ready.readFwd i ≠ 0x61) ∧ ready.readFwd 0 = 0x31 ∧ ready.readFwd 31 = 0x30 ∧
    (decoding 127 7).dacc.toNat < 2 ^ (decoding 127 7).dcnt.toNat :=
  ⟨by decide +kernel, rfl, rfl, rfl, ready_inverse, by decide +kernel, indexOf_eq_none.mp (by decide +kernel), by decide +kernel, by decide +kernel, by decide +kernel⟩
theorem witness_DecEndReportsAndClears :
    State.reset.mode ≠ .ready ∧ ready.mode = .ready ∧ ready.derr = false ∧ ({ ready with derr := true } : State).mode = .ready := by decide +kernel
theorem witness_DecoderPhase :
    ready.Inv ∧ ready.mode = .ready ∧ ready.alpha = defaultAlphabet.codes ∧ ready.DecoderIdle ∧
    [0x33, 0x66].mapM defaultAlphabet.rev = some [8, 5] ∧ (Instr.decPut 0x33).isDecoder = true ∧
    (after (exec (.decPut 0x33) ready)).isSome = true :=
  ⟨ready_meets_inv, rfl, rfl, ⟨rfl, rfl, rfl⟩, by decide +kernel, rfl, by decide +kernel⟩
theorem witness_NoBytesAfterAForeignSymbol :
    ({ ready with derr := true } : State).Inv ∧ ({ ready with derr := true } : State).mode = .ready ∧
    ∀ w ∈ ([0x533, 0x341] : List CmdWord), decodeWord w ≠ some .decEnd :=
  ⟨ready_inv rfl rfl rfl rfl (by decide +kernel) (by decide +kernel), rfl,
    fun w hw => by fin_cases hw <;> decide +kernel⟩
theorem witness_DecoderTransaction :
    ready.Inv ∧ ready.mode = .ready ∧ ready.alpha = defaultAlphabet.codes ∧ ready.DecoderIdle ∧
    decoderCommands [0x000, 0x533, 0x341, 0x532, 0x600] = [0x33, 0x32].map .decPut ++ [.decEnd] ∧
    defaultAlphabet.decode [0x33, 0x32] = .ok [0x41] ∧
    decoderCommands [0x533, 0x521, 0x600] = [0x33, 0x21].map .decPut ++ [.decEnd] ∧
    defaultAlphabet.decode [0x33, 0x21] = .symbolNotFound :=
  ⟨ready_meets_inv, rfl, rfl, ⟨rfl, rfl, rfl⟩, by decide +kernel, by decide +kernel, by decide +kernel, by decide +kernel⟩
theorem witness_FailedDecodeIsTheErrorAlone :
    ready.Inv ∧ ready.mode = .ready ∧ ready.alpha = defaultAlphabet.codes ∧ ready.DecoderIdle ∧
    (∀ x ∈ ([0x33, 0x66] : List Symbol), x ∈ defaultAlphabet.codes.toList) ∧ 0x21 ∉ defaultAlphabet.codes.toList ∧
    decoderCommands [0x000, 0x533, 0x341, 0x566] = [0x33, 0x66].map .decPut ∧
    decoderCommands [0x568, 0x7AB, 0x521, 0x600] = [0x68, 0x21].map .decPut ++ [.decEnd] :=
  ⟨ready_meets_inv, rfl, rfl, ⟨rfl, rfl, rfl⟩, by decide +kernel, by decide +kernel, by decide +kernel, by decide +kernel⟩
/-- A failed decode call and an encode call interleaved, each lane with a further call left open. -/
theorem witness_CallsAreObservedAsEncodeAndDecode :
    ready.Inv ∧ ready.mode = .ready ∧ ready.alpha = defaultAlphabet.codes ∧ ready.EncoderIdle ∧ ready.DecoderIdle ∧
    encoderCommands [0x533, 0x341, 0x521, 0x400, 0x600, 0x000, 0x374, 0x533] =
      ([[0x41]].flatMap fun m => (Pseudo.encode m).expand) ++ [0x74].map .encPut ∧
    decoderCommands [0x533, 0x341, 0x521, 0x400, 0x600, 0x000, 0x374, 0x533] =
      ([[0x33, 0x21]].flatMap fun k => (Pseudo.decode k).expand) ++ [0x33].map .decPut :=
  ⟨ready_meets_inv, rfl, rfl, ⟨rfl, rfl⟩, ⟨rfl, rfl, rfl⟩, by decide +kernel, by decide +kernel⟩
theorem witness_DecoderLaneIsIndependent : ready.Inv ∧ ready.mode = .ready := ⟨ready_meets_inv, rfl⟩
theorem witness_RoundTripThroughTheBlock : ready.Inv ∧ ready.mode = .ready ∧ ready.EncoderIdle ∧ ready.DecoderIdle :=
  ⟨ready_meets_inv, rfl, ⟨rfl, rfl⟩, ⟨rfl, rfl, rfl⟩⟩
theorem witness_BlockLookupsAreFwdAndRev : ready.Inv ∧ ready.mode = .ready ∧ ready.alpha = defaultAlphabet.codes :=
  ⟨ready_meets_inv, rfl, rfl⟩
theorem witness_LookupsAreMutuallyInverse : defaultAlphabet.rev 0x33 = some 8 := by decide +kernel
theorem witness_DefaultAlphabetReverseTable : defaultAlphabet.codes = Config.defaultAlphabet := rfl
theorem witness_DecodeInIntegerForm : [0x33, 0x66].mapM defaultAlphabet.rev = some [8, 5] := by decide +kernel
theorem witness_EncodedTokenShape : (groupsOf [0x41]).getLast? = some 4 := by decide +kernel
theorem witness_EncodeIsInjective : defaultAlphabet.encode [0x41] = defaultAlphabet.encode [0x41] := rfl
theorem witness_EncodeSplitsAtFiveByteBoundaries : ([1, 2, 3, 4, 5] : List Byte).length % 5 = 0 := by decide +kernel
theorem witness_DecodeAcceptsEveryTokenOfTheAlphabet :
    defaultAlphabet.decode [0x33, 0x66, 0x35] = .ok [0x41] ∧ ([0x33, 0x66, 0x35] : List Symbol).length % 8 = 3 ∧
    [0x33, 0x66, 0x35].mapM defaultAlphabet.rev = some [8, 5, 26] ∧
    ∀ c ∈ ([0x33, 0x66, 0x35] : List Symbol), c ∈ defaultAlphabet.codes.toList := by decide +kernel
theorem witness_EncodeUndoesDecodeOnCanonicalTokens :
    ([0x33, 0x66].mapM defaultAlphabet.rev = some [8, 5] ∧ defaultAlphabet.decode [0x33, 0x66] = .ok [0x41] ∧
      CanonicalLength [0x33, 0x66].length ∧ true ∈ ((bitsOf5 [8, 5]).take (5 * 2)).drop (8 * 1)) ∧
    ([0x33, 0x32].mapM defaultAlphabet.rev = some [8, 4] ∧ defaultAlphabet.decode [0x33, 0x32] = .ok [0x41] ∧
      ∀ b ∈ slackBits [8, 4], b = false) ∧
    ([0x33, 0x32, 0x35].mapM defaultAlphabet.rev = some [8, 4, 26] ∧ defaultAlphabet.decode [0x33, 0x32, 0x35] = .ok [0x41] ∧
      ¬CanonicalLength [0x33, 0x32, 0x35].length) :=
  ⟨⟨by decide +kernel, by decide +kernel, .inr (.inl rfl), by decide +kernel⟩, ⟨by decide +kernel, by decide +kernel, by decide +kernel⟩,
    ⟨by decide +kernel, by decide +kernel, by simp [CanonicalLength]⟩⟩

end Sys2Proof.Tests
end

namespace Sys2Proof.Machine

/-! ### A step on a pending command word (spec/00_scope.md R7, 20_memory.md R48) -/

/-- The oldest pending event alone is taken off the port; all later ones stay, in their order (R48). -/
theorem State.consume_of_inp_cons {s : State} {e : Input} {rest : List Input} (hinp : s.inp = e :: rest) :
    s.consume = { s with inp := rest } := by
  rw [State.consume, hinp, List.tail_cons]

theorem State.fetch_of_command {s : State} {w : CmdWord} {rest : List Input} {i : Instr}
    (hinp : s.inp = .cmd w :: rest) (hdec : decodeWord w = some i) : s.fetch = .command i := by
  simp only [State.fetch, hinp, hdec]

theorem step_of_fetch_command {s : State} {i : Instr} (hfetch : s.fetch = .command i) :
    step s = exec i s.consume := by
  simp only [step, hfetch]

/-- Settles O8: the fetch finds the decoded command, and what the command runs on is the state with that word consumed. -/
theorem stepRunsTheDecodedCommand : Obligations.StepRunsTheDecodedCommand := by
  intro s w rest i hinp hdec
  calc step s = exec i s.consume := step_of_fetch_command (State.fetch_of_command hinp hdec)
    _ = exec i { s with inp := rest } := by rw [State.consume_of_inp_cons hinp]

end Sys2Proof.Machine

namespace Sys2Proof.Machine

/-! ### What each command answers, an equation per case (spec/41_config_commands.md R110, R112; 42_encode_commands.md R120, R121;
43_decode_commands.md R130, R132). With the inversions of `Laws/Ops.lean` these say all of `exec`. -/

/-- R142, R145: a command that the mode does not make legal is answered by one `FAULT` and does nothing else. -/
theorem exec_of_not_legal {i : Instr} {s : State} (hl : legalIn i s.mode = false) :
    exec i s = .next (s.emits [.fault .illegalCommand]) := by
  cases i <;> simp [exec, execCfgSym, execCfgCommit, execEncPut, execEncEnd, execDecPut, execDecEnd, State.whenLegal, hl]

theorem exec_cfgSym_of_lt {c : Symbol} {s : State} (hm : s.mode = .config) (hk : s.cfgcnt.toNat < 33) :
    exec (.cfgSym c) s = .next { s.offerSymbol c with cfgcnt := s.cfgcnt + 1 } := by
  have hlegal : s.CfgcntLegal := hk.le
  simp [exec, execCfgSym, State.whenLegal, legalIn, hm, hlegal, hk]

/-- R21: at 33 the counter is saturated and a further symbol is dropped. -/
theorem exec_cfgSym_of_saturated {c : Symbol} {s : State} (hm : s.mode = .config) (hk : s.cfgcnt.toNat = 33) :
    exec (.cfgSym c) s = .next s := by
  simp [exec, execCfgSym, State.whenLegal, legalIn, State.CfgcntLegal, hm, hk]

theorem exec_cfgSym_refused {c : Symbol} {s : State} (hm : s.mode = .config) (hk : ¬s.CfgcntLegal) :
    exec (.cfgSym c) s = .refused .cfgcntOutOfRange := by
  simp only [exec, execCfgSym, State.whenLegal, legalIn, hm, beq_self_eq_true, if_true, if_neg hk]

theorem exec_cfgCommit_of_valid {s : State} (hm : s.mode = .config) (hk : s.CfgcntLegal)
    (hv : validAlphabet s.cfgcnt s.alpha = true) :
    exec .cfgCommit s = .next ({ s.writeRevAll with mode := .ready }.emits [.cdone .ok]) := by
  simp only [exec, execCfgCommit, State.whenLegal, legalIn, hm, beq_self_eq_true, if_true, if_pos hk, hv, State.emit_eq]

theorem exec_cfgCommit_of_invalid {s : State} (hm : s.mode = .config) (hk : s.CfgcntLegal)
    (hv : validAlphabet s.cfgcnt s.alpha = false) :
    exec .cfgCommit s = .next ({ s with mode := .failed }.emits [.cdone .invalidAlphabet]) := by
  simp only [exec, execCfgCommit, State.whenLegal, legalIn, hm, beq_self_eq_true, if_true, if_pos hk, hv,
    Bool.false_eq_true, if_false, State.raise_invalidAlphabet]

theorem exec_cfgCommit_refused {s : State} (hm : s.mode = .config) (hk : ¬s.CfgcntLegal) :
    exec .cfgCommit s = .refused .cfgcntOutOfRange := by
  simp only [exec, execCfgCommit, State.whenLegal, legalIn, hm, beq_self_eq_true, if_true, if_neg hk]

theorem exec_encPut_of_legal {b : Byte} {s : State} (hm : s.mode = .ready) (he : s.EncoderLegal) :
    exec (.encPut b) s = .next ((s.setEncoder (s.encoderBuffer b).acc (s.encoderBuffer b).cnt).emits
      ((s.encoderBuffer b).groups.map s.symbolOf)) := by
  simp only [exec, execEncPut, State.whenLegal, legalIn, hm, beq_self_eq_true, if_true, if_pos he]

theorem exec_encPut_refused {b : Byte} {s : State} (hm : s.mode = .ready) (he : ¬s.EncoderLegal) :
    exec (.encPut b) s = .refused .encoderResidualOutOfRange := by
  simp only [exec, execEncPut, State.whenLegal, legalIn, hm, beq_self_eq_true, if_true, if_neg he]

theorem exec_encEnd_of_legal {s : State} (hm : s.mode = .ready) (he : s.EncoderLegal) :
    exec .encEnd s = .next ((s.setEncoder 0 0).emits (s.paddedGroup.map s.symbolOf ++ [.edone .ok])) := by
  simp only [exec, execEncEnd, State.whenLegal, legalIn, hm, beq_self_eq_true, if_true, if_pos he]

theorem exec_encEnd_refused {s : State} (hm : s.mode = .ready) (he : ¬s.EncoderLegal) :
    exec .encEnd s = .refused .encoderResidualOutOfRange := by
  simp only [exec, execEncEnd, State.whenLegal, legalIn, hm, beq_self_eq_true, if_true, if_neg he]

/-- R130: once `DERR` is 1 every later symbol of the token is ignored. -/
theorem exec_decPut_of_derr {c : Symbol} {s : State} (hm : s.mode = .ready) (hd : s.derr = true) :
    exec (.decPut c) s = .next s := by
  simp only [exec, execDecPut, State.whenLegal, legalIn, hm, beq_self_eq_true, if_true, hd]

theorem exec_decPut_of_foreign {c : Symbol} {s : State} (hm : s.mode = .ready) (hd : s.derr = false)
    (hc : s.lookupRev c = none) : exec (.decPut c) s = .next s.setDerr := by
  simp only [exec, execDecPut, State.whenLegal, legalIn, hm, beq_self_eq_true, if_true, hd, Bool.false_eq_true, if_false, hc,
    State.raise_decodeSymbolNotFound]

theorem exec_decPut_of_found {c : Symbol} {s : State} {i : Group} (hm : s.mode = .ready) (hd : s.derr = false)
    (hc : s.lookupRev c = some i) (hl : s.DecoderLegal) :
    exec (.decPut c) s = .next ((s.setDecoder (s.decoderBuffer i).acc (s.decoderBuffer i).cnt).emits
      ((s.decoderBuffer i).groups.map byteOf)) := by
  simp only [exec, execDecPut, State.whenLegal, legalIn, hm, beq_self_eq_true, if_true, hd, Bool.false_eq_true, if_false, hc,
    if_pos hl]

theorem exec_decPut_refused {c : Symbol} {s : State} {i : Group} (hm : s.mode = .ready) (hd : s.derr = false)
    (hc : s.lookupRev c = some i) (hl : ¬s.DecoderLegal) :
    exec (.decPut c) s = .refused .decoderResidualOutOfRange := by
  simp only [exec, execDecPut, State.whenLegal, legalIn, hm, beq_self_eq_true, if_true, hd, Bool.false_eq_true, if_false, hc,
    if_neg hl]

theorem exec_decEnd_of_ready {s : State} (hm : s.mode = .ready) :
    exec .decEnd s = .next (s.clearDecoder.emits [.ddone (if s.derr then .decodeSymbolNotFound else .ok)]) := by
  simp only [exec, execDecEnd, State.whenLegal, legalIn, hm, beq_self_eq_true, if_true, State.emit_eq]

/-! ### What the operations of a command leave unchanged, and what they read -/

/-- R110: `CFG.SYM` can write no element but `ALPHA`. -/
theorem State.offerSymbol_eq (s : State) (c : Symbol) :
    s.offerSymbol c = { s with alpha := (s.offerSymbol c).alpha } := by
  rw [State.offerSymbol]
  split <;> rfl

theorem State.offerSymbol_with_ridx (s : State) (r : Vector RidxEntry 256) (c : Symbol) :
    ({ s with ridx := r } : State).offerSymbol c = { s.offerSymbol c with ridx := r } := by
  rw [State.offerSymbol, State.offerSymbol]
  split <;> rfl

/-- R22: of `ALPHA`, only the entry that `CFGCNT` names. -/
theorem State.offerSymbol_alpha_of_ne (s : State) (c : Symbol) {k : Nat} (hk : k < 32) (hne : k ≠ s.cfgcnt.toNat) :
    (s.offerSymbol c).alpha[k] = s.alpha[k] := by
  rw [State.offerSymbol]
  split
  case isTrue hlt => exact Vector.getElem_set_ne hlt hk hne.symm
  case isFalse => rfl

theorem State.encoderBuffer_congr {s s' : State} (hacc : s'.eacc = s.eacc) (hcnt : s'.ecnt = s.ecnt) :
    s'.encoderBuffer = s.encoderBuffer := by
  funext b
  rw [State.encoderBuffer, State.encoderBuffer, hacc, hcnt]

theorem State.paddedGroup_congr {s s' : State} (hacc : s'.eacc = s.eacc) (hcnt : s'.ecnt = s.ecnt) :
    s'.paddedGroup = s.paddedGroup := by
  rw [State.paddedGroup, State.paddedGroup, hacc, hcnt]

theorem State.symbolOf_congr {s s' : State} (ha : s'.alpha = s.alpha) : s'.symbolOf = s.symbolOf := by
  funext g
  simp only [State.symbolOf, readFwd_eq_getElem, ha]

theorem State.decoderBuffer_congr {s s' : State} (hacc : s'.dacc = s.dacc) (hcnt : s'.dcnt = s.dcnt) :
    s'.decoderBuffer = s.decoderBuffer := by
  funext i
  rw [State.decoderBuffer, State.decoderBuffer, hacc, hcnt]

theorem State.lookupRev_of_valid (s : State) {c : Symbol} (hc : (s.readRev c).valid = true) :
    s.lookupRev c = some (s.readRev c).idx := by
  rw [State.lookupRev, if_pos hc]

theorem State.lookupRev_congr {s s' : State} (hr : s'.ridx = s.ridx) : s'.lookupRev = s.lookupRev := by
  funext c
  have hread : s'.readRev c = s.readRev c := by simp only [State.readRev, hr]
  rw [State.lookupRev, State.lookupRev, hread]

theorem State.encoderLegal_congr {s s' : State} (hacc : s'.eacc = s.eacc) (hcnt : s'.ecnt = s.ecnt) :
    s'.EncoderLegal ↔ s.EncoderLegal := by
  rw [State.EncoderLegal, State.EncoderLegal, hacc, hcnt]

theorem State.decoderLegal_congr {s s' : State} (hacc : s'.dacc = s.dacc) (hcnt : s'.dcnt = s.dcnt) :
    s'.DecoderLegal ↔ s.DecoderLegal := by
  rw [State.DecoderLegal, State.DecoderLegal, hacc, hcnt]

/-! ### The lanes' buffers leave legal residuals (spec/10_state.md R24, R25) -/

theorem State.encoderBuffer_legal {s : State} (he : s.EncoderLegal) (b : Byte) :
    (s.encoderBuffer b).cnt < 5 ∧ (s.encoderBuffer b).acc < 2 ^ (s.encoderBuffer b).cnt := by
  obtain ⟨hcnt, hacc⟩ := he
  obtain ⟨hk, ha, -⟩ := drain_spec (width := 5) (by decide) 2 _ (s.ecnt.toNat + 8) (appendBits_lt hacc b.isLt) (by omega)
  exact ⟨hk, ha⟩

theorem State.decoderBuffer_legal {s : State} (hd : s.DecoderLegal) (i : Group) :
    (s.decoderBuffer i).cnt < 8 ∧ (s.decoderBuffer i).acc < 2 ^ (s.decoderBuffer i).cnt := by
  obtain ⟨hk, ha, -⟩ := drain_spec (width := 8) (by decide) 1 _ (s.dcnt.toNat + 5) (appendBits_lt hd i.isLt) (by omega)
  exact ⟨hk, ha⟩

/-- The registers are wide enough for every legal residual: narrowing to them loses nothing. -/
theorem State.setEncoder_legal (s : State) {acc cnt : Nat} (hk : cnt < 5) (ha : acc < 2 ^ cnt) :
    (s.setEncoder acc cnt).EncoderLegal := by
  have hfit : acc < 2 ^ 4 := ha.trans_le (Nat.pow_le_pow_right (by decide) (by omega))
  have hcnt : (BitVec.ofNat 3 cnt).toNat = cnt := Nat.mod_eq_of_lt (by omega)
  have hacc : (BitVec.ofNat 4 acc).toNat = acc := Nat.mod_eq_of_lt hfit
  simp only [State.EncoderLegal, State.setEncoder_ecnt, State.setEncoder_eacc, hcnt, hacc]
  exact ⟨by omega, ha⟩

theorem State.setDecoder_legal (s : State) {acc cnt : Nat} (hk : cnt < 8) (ha : acc < 2 ^ cnt) :
    (s.setDecoder acc cnt).DecoderLegal := by
  have hfit : acc < 2 ^ 7 := ha.trans_le (Nat.pow_le_pow_right (by decide) (by omega))
  have hcnt : (BitVec.ofNat 3 cnt).toNat = cnt := Nat.mod_eq_of_lt hk
  have hacc : (BitVec.ofNat 7 acc).toNat = acc := Nat.mod_eq_of_lt hfit
  simpa only [State.DecoderLegal, State.setDecoder_dcnt, State.setDecoder_dacc, hcnt, hacc] using ha

/-! ### The table that `CFG.COMMIT` builds (spec/10_state.md R23, 41_config_commands.md R111, R112) -/

theorem validAlphabet_iff {k : BitVec 6} {alpha : Vector Symbol 32} :
    validAlphabet k alpha = true ↔ (k = 0 ∨ k = 32) ∧ PairwiseDistinct alpha := by
  simp only [validAlphabet, pairwiseDistinct_iff_nodup, Bool.and_eq_true, Bool.or_eq_true, beq_iff_eq, decide_eq_true_eq]

theorem State.writeRevAll_eq (s : State) : s.writeRevAll = { s with ridx := reverseTable s.alpha } := by
  rw [State.writeRevAll]

theorem State.readRev_of_built {s : State} (hr : s.ridx = reverseTable s.alpha) (c : Symbol) :
    s.readRev c = (reverseTable s.alpha)[c.toNat]'c.isLt := by
  simp only [State.readRev, hr]

/-- Looking a code up in the built table is searching the alphabet for it. -/
theorem State.lookupRev_of_built {s : State} (hr : s.ridx = reverseTable s.alpha) (c : Symbol) :
    s.lookupRev c = indexOf s.alpha c := by
  rw [State.lookupRev, State.readRev_of_built hr, getElem_reverseTable]
  cases indexOf s.alpha c <;> rfl

theorem State.ridxInverse_of_built {s : State} (hr : s.ridx = reverseTable s.alpha) (hd : PairwiseDistinct s.alpha) :
    s.RidxInverse where
  found c i := by
    rw [← lookupRev_eq_some, State.lookupRev_of_built hr, indexOf_eq_some_iff hd, readFwd_eq_getElem]
  foreign c hc := by
    rw [State.readRev_of_built hr, getElem_reverseTable, indexOf_eq_none.mpr hc]

/-! ### The invariants (spec/10_state.md R28) -/

/-- Settles O12: each element's reset value is the one the reset record is written with. -/
theorem resetValues : Obligations.ResetValues :=
  ⟨rfl, rfl, rfl, rfl, rfl, rfl, rfl, rfl⟩

theorem State.reset_inv : State.reset.Inv where
  cfgcnt_legal := Nat.zero_le 33
  encoder_legal := ⟨Nat.zero_le 4, Nat.one_pos⟩
  decoder_legal := Nat.one_pos
  encoder_idle _ := ⟨rfl, rfl⟩
  decoder_idle _ := ⟨rfl, rfl, rfl⟩
  ready_distinct h := nomatch h
  ready_count h := nomatch h
  ready_inverse h := nomatch h
  ready_default h := nomatch h
  config_unwritten _ _ _ _ := rfl

/-- Settles O15, clause by clause on the reset record. -/
theorem invariantsHoldAtReset : Obligations.InvariantsHoldAtReset := State.reset_inv

/-- The invariants speak of the block's elements only, not of the ports. -/
theorem State.Inv.with_ports {s : State} (h : s.Inv) (inp : List Input) (rsp : List RspWord) :
    ({ s with inp := inp, rsp := rsp } : State).Inv :=
  { h with
    encoder_idle := fun hm => ⟨(h.encoder_idle hm).ecnt, (h.encoder_idle hm).eacc⟩
    decoder_idle := fun hm => ⟨(h.decoder_idle hm).dcnt, (h.decoder_idle hm).dacc, (h.decoder_idle hm).derr⟩
    ready_inverse := fun hm => ⟨(h.ready_inverse hm).found, (h.ready_inverse hm).foreign⟩ }

theorem State.Inv.emits {s : State} (h : s.Inv) (rs : List Response) : (s.emits rs).Inv := h.with_ports s.inp _

/-- In `READY` the lanes may hold any legal residual: a state with the same configuration and legal lanes meets the invariants. -/
theorem State.Inv.with_lanes {s : State} (h : s.Inv) (hm : s.mode = .ready) (eacc : BitVec 4) (ecnt : BitVec 3)
    (dacc : BitVec 7) (dcnt : BitVec 3) (derr : Bool) (he : ecnt.toNat ≤ 4 ∧ eacc.toNat < 2 ^ ecnt.toNat)
    (hd : dacc.toNat < 2 ^ dcnt.toNat) :
    ({ s with eacc := eacc, ecnt := ecnt, dacc := dacc, dcnt := dcnt, derr := derr } : State).Inv :=
  { h with
    encoder_legal := he
    decoder_legal := hd
    encoder_idle := fun hne => absurd hm hne
    decoder_idle := fun hne => absurd hm hne
    ready_inverse := fun _ => ⟨(h.ready_inverse hm).found, (h.ready_inverse hm).foreign⟩ }

theorem State.Inv.setEncoder {s : State} (h : s.Inv) (hm : s.mode = .ready) {acc cnt : Nat} (hk : cnt < 5)
    (ha : acc < 2 ^ cnt) : (s.setEncoder acc cnt).Inv :=
  h.with_lanes hm _ _ s.dacc s.dcnt s.derr (s.setEncoder_legal hk ha) h.decoder_legal

theorem State.Inv.setDecoder {s : State} (h : s.Inv) (hm : s.mode = .ready) {acc cnt : Nat} (hk : cnt < 8)
    (ha : acc < 2 ^ cnt) : (s.setDecoder acc cnt).Inv :=
  h.with_lanes hm s.eacc s.ecnt _ _ s.derr h.encoder_legal (s.setDecoder_legal hk ha)

/-- Taking a symbol keeps the strengthening of R110 (a): the entry written is below the new count. -/
theorem State.Inv.offerSymbol {s : State} (h : s.Inv) (hm : s.mode = .config) (hk : s.cfgcnt.toNat < 33) (c : Symbol) :
    ({ s.offerSymbol c with cfgcnt := s.cfgcnt + 1 } : State).Inv := by
  have hcnt : (s.cfgcnt + 1).toNat = s.cfgcnt.toNat + 1 := by bv_omega
  have hne : s.mode ≠ .ready := by simp [hm]
  have hunwritten : ∀ (k : Nat) (hk : k < 32), (s.cfgcnt + 1).toNat ≤ k →
      (s.offerSymbol c).alpha[k] = Config.defaultAlphabet[k] := by
    intro k hk32 hle
    rw [State.offerSymbol_alpha_of_ne s c hk32 (by omega)]
    exact h.config_unwritten hm k hk32 (by omega)
  rw [State.offerSymbol_eq]
  exact
    { cfgcnt_legal := by show (s.cfgcnt + 1).toNat ≤ 33; omega
      encoder_legal := h.encoder_legal
      decoder_legal := h.decoder_legal
      encoder_idle := fun _ => ⟨(h.encoder_idle hne).ecnt, (h.encoder_idle hne).eacc⟩
      decoder_idle := fun _ => ⟨(h.decoder_idle hne).dcnt, (h.decoder_idle hne).dacc, (h.decoder_idle hne).derr⟩
      ready_distinct := fun hr => absurd hr hne
      ready_count := fun hr => absurd hr hne
      ready_inverse := fun hr => absurd hr hne
      ready_default := fun hr => absurd hr hne
      config_unwritten := fun _ => hunwritten }

/-- R110 (a) at work: with no symbol taken, `ALPHA` is still the default alphabet. -/
theorem State.Inv.alpha_default {s : State} (h : s.Inv) (hm : s.mode = .config) (hk : s.cfgcnt = 0) :
    s.alpha = Config.defaultAlphabet :=
  Vector.ext fun k hk32 => h.config_unwritten hm k hk32 (by simp [hk])

/-- A commit of a valid alphabet enters `READY` with all that R28 (f) and (g) ask. -/
theorem State.Inv.commit_valid {s : State} (h : s.Inv) (hm : s.mode = .config)
    (hv : validAlphabet s.cfgcnt s.alpha = true) :
    ({ s with mode := .ready, ridx := reverseTable s.alpha } : State).Inv := by
  obtain ⟨hcount, hdistinct⟩ := validAlphabet_iff.mp hv
  exact
    { cfgcnt_legal := h.cfgcnt_legal
      encoder_legal := h.encoder_legal
      decoder_legal := h.decoder_legal
      encoder_idle := fun hne => absurd rfl hne
      decoder_idle := fun hne => absurd rfl hne
      ready_distinct := fun _ => hdistinct
      ready_count := fun _ => hcount
      ready_inverse := fun _ => State.ridxInverse_of_built rfl hdistinct
      ready_default := fun _ => h.alpha_default hm
      config_unwritten := fun hc => nomatch hc }

theorem State.Inv.commit_invalid {s : State} (h : s.Inv) (hm : s.mode = .config) :
    ({ s with mode := .failed } : State).Inv := by
  have hne : s.mode ≠ .ready := by simp [hm]
  exact
    { h with
      encoder_idle := fun _ => ⟨(h.encoder_idle hne).ecnt, (h.encoder_idle hne).eacc⟩
      decoder_idle := fun _ => ⟨(h.decoder_idle hne).dcnt, (h.decoder_idle hne).dacc, (h.decoder_idle hne).derr⟩
      ready_distinct := fun hr => nomatch hr
      ready_count := fun hr => nomatch hr
      ready_inverse := fun hr => nomatch hr
      ready_default := fun hr => nomatch hr
      config_unwritten := fun hc => nomatch hc }

/-- Every command keeps the invariants: the cases are those of the inversion of its meaning. -/
theorem exec_keeps_inv {i : Instr} {s t : State} (h : s.Inv) (hx : exec i s = .next t) : t.Inv := by
  cases i with
  | cfgSym c =>
    obtain ⟨-, rfl⟩ | ⟨hm, hk, rfl⟩ | ⟨-, -, rfl⟩ := execCfgSym_next hx
    · exact h.emits _
    · exact h.offerSymbol hm hk c
    · exact h
  | cfgCommit =>
    obtain ⟨-, rfl⟩ | ⟨hm, -, hv, rfl⟩ | ⟨hm, -, -, rfl⟩ := execCfgCommit_next hx
    · exact h.emits _
    · rw [State.writeRevAll_eq]
      exact (h.commit_valid hm hv).emits _
    · exact (h.commit_invalid hm).emits _
  | encPut b =>
    obtain ⟨-, rfl⟩ | ⟨hm, he, rfl⟩ := execEncPut_next hx
    · exact h.emits _
    · obtain ⟨hk, ha⟩ := State.encoderBuffer_legal he b
      exact (h.setEncoder hm hk ha).emits _
  | encEnd =>
    obtain ⟨-, rfl⟩ | ⟨hm, -, rfl⟩ := execEncEnd_next hx
    · exact h.emits _
    · exact (h.setEncoder hm (by decide) (by decide)).emits _
  | decPut c =>
    obtain ⟨-, rfl⟩ | ⟨-, -, rfl⟩ | ⟨hm, -, -, rfl⟩ | ⟨hm, -, hd, i, -, rfl⟩ := execDecPut_next hx
    · exact h.emits _
    · exact h
    · exact h.with_lanes hm _ _ _ _ true h.encoder_legal h.decoder_legal
    · obtain ⟨hk, ha⟩ := State.decoderBuffer_legal hd i
      exact (h.setDecoder hm hk ha).emits _
  | decEnd =>
    obtain ⟨-, rfl⟩ | ⟨hm, rfl⟩ := execDecEnd_next hx
    · exact h.emits _
    · exact State.Inv.emits (h.with_lanes hm _ _ 0 0 false h.encoder_legal Nat.one_pos) _

theorem step_keeps_inv {s t : State} (h : s.Inv) (hstep : step s = .next t) : t.Inv := by
  obtain ⟨-, rfl⟩ | ⟨rest, -, rfl⟩ | ⟨w, rest, -, -, rfl⟩ | ⟨w, rest, i, -, -, hx⟩ := step_next hstep
  · exact h
  · exact State.reset_inv.with_ports rest s.rsp
  · exact (h.with_ports rest s.rsp).emits _
  · exact exec_keeps_inv (h.with_ports rest s.rsp) hx

/-- Settles O16, by the cases of a step and of each command. -/
theorem everyStepKeepsTheInvariants : Obligations.EveryStepKeepsTheInvariants :=
  fun _ _ => step_keeps_inv

/-! ### Runs (spec/10_state.md R28) -/

theorem run_succ {n : Nat} {s t : State} : run (n + 1) s = .next t ↔ ∃ u, step s = .next u ∧ run n u = .next t := by
  rw [run]
  cases step s <;> simp

/-- A property that every step keeps is kept by every run. -/
theorem run_keeps {P : State → Prop} (hstep : ∀ {s t : State}, P s → step s = .next t → P t) {n : Nat} {s t : State}
    (hs : P s) (hrun : run n s = .next t) : P t := by
  induction n generalizing s with
  | zero =>
    obtain rfl : s = t := by simpa [run_zero] using hrun
    exact hs
  | succ n ih =>
    obtain ⟨u, hu, hrest⟩ := run_succ.mp hrun
    exact ih (hstep hs hu) hrest

theorem reachable_inv {inp : List Input} {n : Nat} {t : State} (hrun : run n { State.reset with inp := inp } = .next t) :
    t.Inv :=
  run_keeps step_keeps_inv (State.reset_inv.with_ports inp []) hrun

theorem Mode.bits_ne_three (m : Mode) : m.bits ≠ 3 := by cases m <;> decide

/-- Settles O17: a reachable state meets the invariants, whose clauses are those of R28; (a) and `DCNT <= 7` hold by the types. -/
theorem reachableStatesMeetTheInvariants : Obligations.ReachableStatesMeetTheInvariants := by
  intro inp n t hrun
  have h : t.Inv := reachable_inv hrun
  refine ⟨t.mode.bits_ne_three, h.cfgcnt_legal, h.encoder_legal, ⟨Nat.le_of_lt_succ t.dcnt.isLt, h.decoder_legal⟩,
    fun hm => ?_, fun hm => ⟨h.ready_distinct hm, h.ready_count hm, h.ready_inverse hm⟩, h.ready_default⟩
  obtain ⟨hecnt, heacc⟩ := h.encoder_idle hm
  obtain ⟨hdcnt, hdacc, hderr⟩ := h.decoder_idle hm
  exact ⟨hecnt, heacc, hdcnt, hdacc, hderr⟩

/-! ### A step, an equation per kind of port event (spec/00_scope.md R7) -/

theorem step_of_idle {s : State} (hinp : s.inp = []) : step s = .next s := by
  simp only [step, State.fetch, hinp]

theorem step_of_reset {s : State} {rest : List Input} (hinp : s.inp = .reset :: rest) :
    step s = .next ({ s with inp := rest } : State).resetBlock := by
  simp only [step, State.fetch, hinp, State.consume_of_inp_cons hinp]

theorem step_of_reserved {s : State} {w : CmdWord} {rest : List Input} (hinp : s.inp = .cmd w :: rest)
    (hdec : decodeWord w = none) :
    step s = .next (({ s with inp := rest } : State).emits [.fault .illegalCommand]) := by
  simp only [step, State.fetch, hinp, hdec, State.consume_of_inp_cons hinp, State.raise_illegalCommand]

/-! ### The reverse table outside `READY` (spec/10_state.md R23, 93_implementation_defined.md U7) -/

/-- Outside `READY` a command answers alike whatever `RIDX` holds: either it overwrites the whole table (a commit), or it carries the
table along and does not enter `READY`. -/
theorem exec_with_ridx {i : Instr} {s t : State} (r : Vector RidxEntry 256) (hne : s.mode ≠ .ready)
    (hx : exec i s = .next t) :
    exec i { s with ridx := r } = .next t ∨
      (t.mode ≠ .ready ∧ exec i { s with ridx := r } = .next { t with ridx := r }) := by
  cases hl : legalIn i s.mode with
  | false =>
    obtain rfl : s.emits [.fault .illegalCommand] = t := by simpa [exec_of_not_legal hl] using hx
    exact .inr ⟨hne, exec_of_not_legal hl⟩
  | true =>
    cases i with
    | cfgSym c =>
      obtain ⟨hm, -⟩ | ⟨hm, hk, rfl⟩ | ⟨hm, hk, rfl⟩ := execCfgSym_next hx
      · simp [legalIn, hm] at hl
      · refine .inr ⟨by rw [State.offerSymbol_eq]; exact hne, ?_⟩
        rw [exec_cfgSym_of_lt (s := { s with ridx := r }) hm hk, State.offerSymbol_with_ridx]
      · exact .inr ⟨hne, exec_cfgSym_of_saturated hm hk⟩
    | cfgCommit =>
      obtain ⟨hm, -⟩ | ⟨hm, hk, hv, rfl⟩ | ⟨hm, hk, hv, rfl⟩ := execCfgCommit_next hx
      · simp [legalIn, hm] at hl
      · exact .inl (exec_cfgCommit_of_valid hm hk hv)
      · exact .inr ⟨nofun, exec_cfgCommit_of_invalid hm hk hv⟩
    | encPut b => simp [legalIn, hne] at hl
    | encEnd => simp [legalIn, hne] at hl
    | decPut c => simp [legalIn, hne] at hl
    | decEnd => simp [legalIn, hne] at hl

theorem step_with_ridx {s t : State} (r : Vector RidxEntry 256) (hne : s.mode ≠ .ready) (hstep : step s = .next t) :
    step { s with ridx := r } = .next t ∨
      (t.mode ≠ .ready ∧ step { s with ridx := r } = .next { t with ridx := r }) := by
  obtain ⟨hinp, rfl⟩ | ⟨rest, hinp, rfl⟩ | ⟨w, rest, hinp, hdec, rfl⟩ | ⟨w, rest, i, hinp, hdec, hx⟩ := step_next hstep
  · exact .inr ⟨hne, step_of_idle hinp⟩
  · exact .inl (step_of_reset hinp)
  · exact .inr ⟨hne, step_of_reserved hinp hdec⟩
  · rw [stepRunsTheDecodedCommand { s with ridx := r } w rest i hinp hdec]
    exact exec_with_ridx (s := { s with inp := rest }) r hne hx

/-- Settles O19, by induction on the number of steps: as long as the mode is not `READY` the two runs differ in the table alone, and
the commit that enters `READY` writes all of it. -/
theorem reverseTableIsUnobservableOutsideReady : Obligations.ReverseTableIsUnobservableOutsideReady := by
  intro n
  induction n with
  | zero =>
    intro s t r hne hrun
    obtain rfl : s = t := by simpa [run_zero] using hrun
    exact ⟨_, run_zero _, rfl, fun hm => absurd hm hne⟩
  | succ n ih =>
    intro s t r hne hrun
    obtain ⟨u, hu, hrest⟩ := run_succ.mp hrun
    obtain hsame | ⟨hune, hdiff⟩ := step_with_ridx r hne hu
    · exact ⟨t, run_succ.mpr ⟨u, hsame, hrest⟩, rfl, fun _ => rfl⟩
    · obtain ⟨t', hrun', htable, hready⟩ := ih u t r hune hrest
      exact ⟨t', run_succ.mpr ⟨_, hdiff, hrun'⟩, htable, hready⟩

/-! ### The access matrix (spec/10_state.md R33) -/

theorem State.emits_rsp_prefix (s : State) (rs : List Response) : s.rsp <+: (s.emits rs).rsp :=
  List.prefix_append _ _

/-- Settles O20: in each case of a command's inversion the next state is written as an update of the elements of its row. -/
theorem commandsWriteOnlyTheirElements : Obligations.CommandsWriteOnlyTheirElements := by
  intro i s t hx
  cases i with
  | cfgSym c =>
    obtain ⟨-, rfl⟩ | ⟨-, -, rfl⟩ | ⟨-, -, rfl⟩ := execCfgSym_next hx
    · exact ⟨s.emits_rsp_prefix _, rfl, fun _ _ _ => rfl⟩
    · rw [State.offerSymbol_eq]
      exact ⟨List.prefix_rfl, rfl, fun k hk hne => s.offerSymbol_alpha_of_ne c hk hne⟩
    · exact ⟨List.prefix_rfl, rfl, fun _ _ _ => rfl⟩
  | cfgCommit =>
    obtain ⟨-, rfl⟩ | ⟨-, -, -, rfl⟩ | ⟨-, -, -, rfl⟩ := execCfgCommit_next hx
    · exact ⟨s.emits_rsp_prefix _, rfl⟩
    · rw [State.writeRevAll_eq]
      exact ⟨State.emits_rsp_prefix _ _, rfl⟩
    · exact ⟨State.emits_rsp_prefix _ _, rfl⟩
  | encPut b =>
    obtain ⟨-, rfl⟩ | ⟨-, -, rfl⟩ := execEncPut_next hx <;> exact ⟨State.emits_rsp_prefix _ _, rfl⟩
  | encEnd =>
    obtain ⟨-, rfl⟩ | ⟨-, -, rfl⟩ := execEncEnd_next hx <;> exact ⟨State.emits_rsp_prefix _ _, rfl⟩
  | decPut c =>
    obtain ⟨-, rfl⟩ | ⟨-, -, rfl⟩ | ⟨-, -, -, rfl⟩ | ⟨-, -, -, i, -, rfl⟩ := execDecPut_next hx
    · exact ⟨s.emits_rsp_prefix _, rfl⟩
    · exact ⟨List.prefix_rfl, rfl⟩
    · exact ⟨List.prefix_rfl, rfl⟩
    · exact ⟨State.emits_rsp_prefix _ _, rfl⟩
  | decEnd =>
    obtain ⟨-, rfl⟩ | ⟨-, rfl⟩ := execDecEnd_next hx <;> exact ⟨State.emits_rsp_prefix _ _, rfl⟩

theorem legalIn_of_lane {i : Instr} (hi : i.isEncoder = true ∨ i.isDecoder = true) (m : Mode) :
    legalIn i m = (m == .ready) := by
  cases i with
  | cfgSym c => simp [Instr.isEncoder, Instr.isDecoder] at hi
  | cfgCommit => simp [Instr.isEncoder, Instr.isDecoder] at hi
  | encPut b => rfl
  | encEnd => rfl
  | decPut c => rfl
  | decEnd => rfl

theorem exec_lane_of_not_ready {i : Instr} {s : State} (hi : i.isEncoder = true ∨ i.isDecoder = true)
    (hm : s.mode ≠ .ready) : exec i s = .next (s.emits [.fault .illegalCommand]) :=
  exec_of_not_legal (by rw [legalIn_of_lane hi]; exact beq_false_of_ne hm)

/-- Settles O21: both states are in the same case of the command, and the buffer, the padded group and the symbols emitted read only
`EACC`, `ECNT` and `ALPHA`. -/
theorem encoderReadsOnlyItsElements : Obligations.EncoderReadsOnlyItsElements := by
  intro i s t s' hi hx hmode halpha heacc hecnt
  have hrefused (hm : s.mode ≠ .ready) : exec i s' = .next (s'.emits [.fault .illegalCommand]) :=
    exec_lane_of_not_ready (.inl hi) (hmode.trans_ne hm)
  have hlane (l : List RspWord) :
      ({ s' with rsp := s'.rsp ++ l } : State) = { s' with eacc := s.eacc, ecnt := s.ecnt, rsp := s'.rsp ++ l } := by
    rw [← heacc, ← hecnt]
  cases i with
  | encPut b =>
    obtain ⟨hm, rfl⟩ | ⟨hm, he, rfl⟩ := execEncPut_next hx
    · exact ⟨_, rfl, (hrefused hm).trans (congrArg _ (hlane _))⟩
    · refine ⟨_, rfl, ?_⟩
      rw [exec_encPut_of_legal (hmode.trans hm) ((State.encoderLegal_congr heacc hecnt).mpr he),
        State.encoderBuffer_congr heacc hecnt, State.symbolOf_congr halpha]
      rfl
  | encEnd =>
    obtain ⟨hm, rfl⟩ | ⟨hm, he, rfl⟩ := execEncEnd_next hx
    · exact ⟨_, rfl, (hrefused hm).trans (congrArg _ (hlane _))⟩
    · refine ⟨_, rfl, ?_⟩
      rw [exec_encEnd_of_legal (hmode.trans hm) ((State.encoderLegal_congr heacc hecnt).mpr he),
        State.paddedGroup_congr heacc hecnt, State.symbolOf_congr halpha]
      rfl
  | cfgSym c => simp [Instr.isEncoder] at hi
  | cfgCommit => simp [Instr.isEncoder] at hi
  | decPut c => simp [Instr.isEncoder] at hi
  | decEnd => simp [Instr.isEncoder] at hi

/-- Settles O22: both states are in the same case of the command, and the look-up, the buffer and the status reported read only
`RIDX`, `DACC`, `DCNT` and `DERR`. -/
theorem decoderReadsOnlyItsElements : Obligations.DecoderReadsOnlyItsElements := by
  intro i s t s' hi hx hmode hridx hdacc hdcnt hderr
  have hrefused (hm : s.mode ≠ .ready) : exec i s' = .next (s'.emits [.fault .illegalCommand]) :=
    exec_lane_of_not_ready (.inr hi) (hmode.trans_ne hm)
  have hlane (l : List RspWord) :
      ({ s' with rsp := s'.rsp ++ l } : State) =
        { s' with dacc := s.dacc, dcnt := s.dcnt, derr := s.derr, rsp := s'.rsp ++ l } := by
    rw [← hdacc, ← hdcnt, ← hderr]
  cases i with
  | decPut c =>
    obtain ⟨hm, rfl⟩ | ⟨hm, hd, rfl⟩ | ⟨hm, hd, hc, rfl⟩ | ⟨hm, hd, hl, i, hc, rfl⟩ := execDecPut_next hx
    · exact ⟨_, rfl, (hrefused hm).trans (congrArg _ (hlane _))⟩
    · refine ⟨[], (List.append_nil _).symm, ?_⟩
      rw [exec_decPut_of_derr (hmode.trans hm) (hderr.trans hd), ← hlane, List.append_nil]
    · refine ⟨[], (List.append_nil _).symm, ?_⟩
      rw [exec_decPut_of_foreign (hmode.trans hm) (hderr.trans hd) (by rw [State.lookupRev_congr hridx, hc]), List.append_nil]
      simp only [State.setDerr, ← hdacc, ← hdcnt]
    · refine ⟨_, rfl, ?_⟩
      rw [exec_decPut_of_found (hmode.trans hm) (hderr.trans hd) (by rw [State.lookupRev_congr hridx, hc])
        ((State.decoderLegal_congr hdacc hdcnt).mpr hl), State.decoderBuffer_congr hdacc hdcnt,
        State.emits_derr, State.setDecoder_derr, ← hderr]
      rfl
  | decEnd =>
    obtain ⟨hm, rfl⟩ | ⟨hm, rfl⟩ := execDecEnd_next hx
    · exact ⟨_, rfl, (hrefused hm).trans (congrArg _ (hlane _))⟩
    · refine ⟨_, rfl, ?_⟩
      rw [exec_decEnd_of_ready (hmode.trans hm), hderr]
      rfl
  | cfgSym c => simp [Instr.isDecoder] at hi
  | cfgCommit => simp [Instr.isDecoder] at hi
  | encPut b => simp [Instr.isDecoder] at hi
  | encEnd => simp [Instr.isDecoder] at hi

/-! ### The status view (spec/10_state.md R31) -/

/-- A field placed above another reads as a sum. -/
theorem or_shiftLeft_eq_add {v a n : Nat} (hv : v < 2 ^ n) : v ||| a <<< n = v + 2 ^ n * a := by
  rw [Nat.or_comm, ← Nat.shiftLeft_add_eq_or_of_lt hv, Nat.shiftLeft_eq, Nat.mul_comm, Nat.add_comm]

/-- A field moved to its place loses no bit when the place fits the register. -/
theorem toNat_setWidth_shiftLeft {w m n : Nat} (v : BitVec w) (hw : w + n ≤ m) :
    (v.setWidth m <<< n).toNat = v.toNat <<< n := by
  have hfit : v.toNat <<< n < 2 ^ m := calc
    v.toNat <<< n = v.toNat * 2 ^ n := Nat.shiftLeft_eq _ _
    _ < 2 ^ w * 2 ^ n := Nat.mul_lt_mul_of_pos_right v.isLt (by positivity)
    _ = 2 ^ (w + n) := (Nat.pow_add ..).symm
    _ ≤ 2 ^ m := Nat.pow_le_pow_right (by decide) hw
  have hv : v.toNat < 2 ^ m := v.isLt.trans_le (Nat.pow_le_pow_right (by decide) (by omega))
  rw [BitVec.toNat_shiftLeft, BitVec.toNat_setWidth, Nat.mod_eq_of_lt hv, Nat.mod_eq_of_lt hfit]

/-- R31: the five fields do not overlap, so `STATUS` is their weighted sum. -/
theorem State.status_toNat (s : State) :
    s.status.toNat = s.mode.bits.toNat + 4 * s.derr.toNat + 8 * s.ecnt.toNat + 64 * s.dcnt.toNat + 512 * s.cfgcnt.toNat := by
  have hmode := s.mode.bits.isLt
  have hderr := s.derr.toNat_lt
  have hecnt := s.ecnt.isLt
  have hdcnt := s.dcnt.isLt
  have hm : (s.mode.bits.setWidth 16).toNat = s.mode.bits.toNat := by
    rw [BitVec.toNat_setWidth]; omega
  simp only [State.status, BitVec.toNat_or, hm]
  rw [toNat_setWidth_shiftLeft _ (by decide), toNat_setWidth_shiftLeft _ (by decide), toNat_setWidth_shiftLeft _ (by decide),
    toNat_setWidth_shiftLeft _ (by decide), BitVec.toNat_ofBool,
    or_shiftLeft_eq_add (n := 2) hmode, or_shiftLeft_eq_add (n := 3) (by omega), or_shiftLeft_eq_add (n := 6) (by omega),
    or_shiftLeft_eq_add (n := 9) (by omega)]
  rfl

/-- A field of a word, as a number. -/
theorem toNat_extractLsb_eq_div_mod {w : Nat} (v : BitVec w) (hi lo : Nat) :
    (v.extractLsb hi lo).toNat = v.toNat / 2 ^ lo % 2 ^ (hi - lo + 1) := by
  rw [BitVec.extractLsb_toNat, Nat.shiftRight_eq_div_pow]

/-- A bit of a word, found from the number. -/
theorem getLsbD_eq_of_div_mod {w n : Nat} {v : BitVec w} {b : Bool} (h : v.toNat / 2 ^ n % 2 = b.toNat) : v.getLsbD n = b := by
  rw [BitVec.getLsbD, Nat.testBit_eq_decide_div_mod_eq, h]
  cases b <;> rfl

/-- Settles O14: every field is read off the weighted sum. -/
theorem statusLayout : Obligations.StatusLayout := by
  refine ⟨fun s => ?_, rfl, fun s hm he hd => ?_⟩
  · have hsum := s.status_toNat
    have hmode := s.mode.bits.isLt
    have hderr := s.derr.toNat_lt
    have hecnt := s.ecnt.isLt
    have hdcnt := s.dcnt.isLt
    have hcfgcnt := s.cfgcnt.isLt
    refine ⟨?_, ?_, ?_, ?_, ?_, ?_, ?_⟩
    · have hbits : s.status.extractLsb 1 0 = s.mode.bits :=
        BitVec.eq_of_toNat_eq (by rw [toNat_extractLsb_eq_div_mod]; omega)
      rw [hbits]
      cases s.mode <;> rfl
    · exact getLsbD_eq_of_div_mod (by omega)
    · exact BitVec.eq_of_toNat_eq (by rw [toNat_extractLsb_eq_div_mod]; omega)
    · exact BitVec.eq_of_toNat_eq (by rw [toNat_extractLsb_eq_div_mod]; omega)
    · exact BitVec.eq_of_toNat_eq (by rw [toNat_extractLsb_eq_div_mod]; omega)
    · exact getLsbD_eq_of_div_mod (by rw [Bool.toNat_false]; omega)
    · rw [hsum]
      cases s.mode <;> rfl
  · have hsum : s.status.toNat = 1 + 512 * s.cfgcnt.toNat := by
      simp [s.status_toNat, hm, Mode.bits, hd.derr, he.ecnt, hd.dcnt]
    exact ⟨fun hc => BitVec.eq_of_toNat_eq (by simp [hsum, hc]), fun hc => BitVec.eq_of_toNat_eq (by simp [hsum, hc])⟩

/-! ### Register values that no rule writes (spec/93_implementation_defined.md U11) -/

/-- Settles O31, by the refusal of each command that reads the register. -/
theorem unwrittenRegisterValuesAreRefused : Obligations.UnwrittenRegisterValuesAreRefused := fun s =>
  ⟨fun hm hk => ⟨fun _ => exec_cfgSym_refused hm hk, exec_cfgCommit_refused hm hk⟩,
    fun hm he => ⟨fun _ => exec_encPut_refused hm he, exec_encEnd_refused hm he⟩,
    fun hm hd hl _ hc => exec_decPut_refused hm hd (s.lookupRev_of_valid hc) hl⟩

end Sys2Proof.Machine

namespace Sys2Proof.Machine

/-! ### A step takes the oldest pending port event (spec/20_memory.md R48) -/

/-- No command touches the pending port events: its write columns (R33) do not hold them. -/
theorem exec_inp {i : Instr} {s t : State} (hx : exec i s = .next t) : t.inp = s.inp := by
  obtain ⟨-, hwrite⟩ := commandsWriteOnlyTheirElements i s t hx
  cases i with
  | cfgSym c => rw [hwrite.left]
  | cfgCommit => rw [hwrite]
  | encPut b => rw [hwrite]
  | encEnd => rw [hwrite]
  | decPut c => rw [hwrite]
  | decEnd => rw [hwrite]

theorem step_inp {s t : State} (hstep : step s = .next t) : t.inp = s.inp.tail := by
  obtain ⟨hinp, rfl⟩ | ⟨rest, hinp, rfl⟩ | ⟨w, rest, hinp, -, rfl⟩ | ⟨w, rest, i, hinp, -, hx⟩ := step_next hstep <;>
    rw [hinp]
  · rfl
  · rfl
  · rfl
  · exact exec_inp hx

/-- A property that the step on every command word keeps is kept by every stream of command words, whatever events are pending
behind it. -/
theorem run_words_keeps {P : State → Prop}
    (hstep : ∀ {s t : State} {w : CmdWord} {rest : List Input}, P s → s.inp = .cmd w :: rest → step s = .next t → P t)
    {ws : List CmdWord} {rest : List Input} {s t : State} (hs : P s) (hinp : s.inp = ws.map .cmd ++ rest)
    (hrun : run ws.length s = .next t) : P t := by
  induction ws generalizing s with
  | nil =>
    obtain rfl : s = t := by simpa [run_zero] using hrun
    exact hs
  | cons w ws ih =>
    obtain ⟨u, hu, hrest⟩ := run_succ.mp hrun
    exact ih (hstep hs hinp hu) (by rw [step_inp hu, hinp]; rfl) hrest

/-! ### The alphabet in `READY` (spec/20_memory.md R51, 70_reset_and_hazards.md R173) -/

/-- `s` is in `READY` and holds the alphabet, the reverse table and the count of `s₀`. -/
structure State.FrozenAs (s s₀ : State) : Prop where
  mode : s.mode = .ready
  alpha : s.alpha = s₀.alpha
  ridx : s.ridx = s₀.ridx
  cfgcnt : s.cfgcnt = s₀.cfgcnt

theorem State.FrozenAs.with_lanes {s s₀ : State} (h : s.FrozenAs s₀) (eacc : BitVec 4) (ecnt : BitVec 3) (dacc : BitVec 7)
    (dcnt : BitVec 3) (derr : Bool) (inp : List Input) (rsp : List RspWord) :
    ({ s with eacc := eacc, ecnt := ecnt, dacc := dacc, dcnt := dcnt, derr := derr, inp := inp, rsp := rsp } : State).FrozenAs
      s₀ :=
  ⟨h.mode, h.alpha, h.ridx, h.cfgcnt⟩

theorem State.FrozenAs.with_inp {s s₀ : State} (h : s.FrozenAs s₀) (inp : List Input) :
    ({ s with inp := inp } : State).FrozenAs s₀ :=
  h.with_lanes _ _ _ _ _ inp _

theorem State.FrozenAs.emits {s s₀ : State} (h : s.FrozenAs s₀) (rs : List Response) : (s.emits rs).FrozenAs s₀ :=
  h.with_lanes _ _ _ _ _ _ (s.emits rs).rsp

/-- In `READY` the configuration commands are refused (R64), and no data command writes the four elements (R33). -/
theorem exec_keeps_frozen {i : Instr} {s s₀ t : State} (h : s.FrozenAs s₀) (hx : exec i s = .next t) : t.FrozenAs s₀ := by
  cases hl : legalIn i s.mode with
  | false =>
    obtain rfl : s.emits [.fault .illegalCommand] = t := by simpa [exec_of_not_legal hl] using hx
    exact h.emits _
  | true =>
    obtain ⟨-, hwrite⟩ := commandsWriteOnlyTheirElements i s t hx
    cases i with
    | cfgSym c => simp [legalIn, h.mode] at hl
    | cfgCommit => simp [legalIn, h.mode] at hl
    | encPut b => rw [hwrite]; exact h.with_lanes ..
    | encEnd => rw [hwrite]; exact h.with_lanes ..
    | decPut c => rw [hwrite]; exact h.with_lanes ..
    | decEnd => rw [hwrite]; exact h.with_lanes ..

/-- The step takes a command word: a reset would leave `READY`. -/
theorem step_keeps_frozen {s s₀ t : State} {w : CmdWord} {rest : List Input} (h : s.FrozenAs s₀)
    (hinp : s.inp = .cmd w :: rest) (hstep : step s = .next t) : t.FrozenAs s₀ := by
  cases hdec : decodeWord w with
  | none =>
    obtain rfl : ({ s with inp := rest } : State).emits [.fault .illegalCommand] = t := by
      simpa [step_of_reserved hinp hdec] using hstep
    exact (h.with_inp rest).emits _
  | some i =>
    rw [stepRunsTheDecodedCommand s w rest i hinp hdec] at hstep
    exact exec_keeps_frozen (h.with_inp rest) hstep

/-- Settles O29: each word of the stream keeps the mode and the three elements as they were when the stream was sent. -/
theorem alphabetIsFrozenInReady : Obligations.AlphabetIsFrozenInReady := by
  intro s t ws hm hsend
  have hsent : (s.push (ws.map .cmd)).FrozenAs s := ⟨hm, rfl, rfl, rfl⟩
  have hfrozen : t.FrozenAs s := run_words_keeps step_keeps_frozen hsent (s.push_inp _) hsend
  exact ⟨hfrozen.mode, hfrozen.alpha, hfrozen.ridx, hfrozen.cfgcnt⟩

end Sys2Proof.Machine

namespace Sys2Proof.Machine

/-! ### Bit sequences (spec/20_memory.md R42) -/

@[simp] theorem length_bitsMsb {w : Nat} (v : BitVec w) : (bitsMsb v).length = w := by simp [bitsMsb]

theorem getElem?_bitsMsb {w k : Nat} (v : BitVec w) (hk : k < w) : (bitsMsb v)[k]? = some (v.getLsbD (w - 1 - k)) := by
  simp [bitsMsb, hk]

theorem length_flatMap_bitsMsb {w : Nat} (vs : List (BitVec w)) : (vs.flatMap bitsMsb).length = w * vs.length := by
  induction vs with
  | nil => rfl
  | cons v vs ih => simp [ih, Nat.mul_succ, Nat.add_comm]

/-- Bit `k` lies in value `k / w`, at distance `k % w` from its most significant bit. -/
theorem getElem?_flatMap_bitsMsb {w : Nat} (hw : 0 < w) (vs : List (BitVec w)) (k : Nat) :
    (vs.flatMap bitsMsb)[k]? = vs[k / w]?.map fun v => v.getLsbD (w - 1 - k % w) := by
  induction vs generalizing k with
  | nil => rfl
  | cons v vs ih =>
    rw [List.flatMap_cons]
    by_cases hk : k < w
    · rw [List.getElem?_append_left (by simpa using hk), getElem?_bitsMsb v hk, Nat.div_eq_of_lt hk, Nat.mod_eq_of_lt hk]
      rfl
    · obtain ⟨j, rfl⟩ := Nat.exists_eq_add_of_le' (Nat.le_of_not_lt hk)
      rw [List.getElem?_append_right (by simp), length_bitsMsb, Nat.add_sub_cancel, ih, Nat.add_div_right j hw,
        Nat.add_mod_right, List.getElem?_cons_succ]

/-- Settles O44: both sequences are values written out bit by bit, of 8 and of 5 bits. -/
theorem bitSequencesByPosition : Obligations.BitSequencesByPosition := by
  refine ⟨fun M => ⟨length_flatMap_bitsMsb M, fun k hk => ?_⟩, fun I => ⟨length_flatMap_bitsMsb I, fun k hk => ?_⟩⟩
  · rw [bitsOf8, getElem?_flatMap_bitsMsb (by decide), List.getElem?_eq_getElem (by omega), Option.map_some]
  · rw [bitsOf5, getElem?_flatMap_bitsMsb (by decide), List.getElem?_eq_getElem (by omega), Option.map_some]

end Sys2Proof.Machine

namespace Sys2Proof.Machine

/-! ### Decode and encode (spec/30_encoding.md R62, R66) -/

theorem decodeWord_encode (i : Instr) : decodeWord (encode i) = some i := by
  cases i with
  | cfgSym s => simp [encode, decodeWord]
  | cfgCommit => rfl
  | encPut b => simp [encode, decodeWord]
  | encEnd => rfl
  | decPut s => simp [encode, decodeWord]
  | decEnd => rfl

theorem wordOf_eq_of_fields {w : CmdWord} {op : BitVec 4} {d : BitVec 8} (hop : (opField w).toNat = op.toNat)
    (hdata : dataField w = d) : wordOf op d = w := by
  rw [← BitVec.eq_of_toNat_eq hop, ← hdata, wordOf_fields]

/-- In each case of the decoder the command's word has the word's own two fields. -/
theorem encode_of_decodeWord {w : CmdWord} {i : Instr} (h : decodeWord w = some i) : encode i = w := by
  rw [decodeWord] at h
  split at h <;> simp only [Option.ite_none_right_eq_some, Option.some.injEq, reduceCtorEq] at h
  case h_1 hop => subst h; exact wordOf_eq_of_fields hop rfl
  case h_2 hop => obtain ⟨hdata, rfl⟩ := h; exact wordOf_eq_of_fields hop hdata
  case h_3 hop => subst h; exact wordOf_eq_of_fields hop rfl
  case h_4 hop => obtain ⟨hdata, rfl⟩ := h; exact wordOf_eq_of_fields hop hdata
  case h_5 hop => subst h; exact wordOf_eq_of_fields hop rfl
  case h_6 hop => obtain ⟨hdata, rfl⟩ := h; exact wordOf_eq_of_fields hop hdata

/-- Settles O1: the encoder's word decodes back, and the decoder's cases read it off its fields. -/
theorem everyCommandHasExactlyOneWord : Obligations.EveryCommandHasExactlyOneWord :=
  fun _ i => ⟨encode_of_decodeWord, fun h => h ▸ decodeWord_encode i⟩

/-! ### The opcode map (spec/30_encoding.md R62) -/

/-- The mask 0xF00 keeps the `op` field. -/
theorem and_opMask_eq_iff {w : CmdWord} {op : BitVec 4} : w &&& 0xF00 = wordOf op 0 ↔ opField w = op := by
  constructor
  · intro h
    rw [← wordOf_fields w, Laws.OpcodeRow.word_in_row] at h
    simpa using congrArg opField h
  · rintro rfl
    nth_rw 1 [← wordOf_fields w]
    exact Laws.OpcodeRow.word_in_row _ _

/-- The rows with an operand: the mask leaves `op`, and the operand is the `data` field whatever it is (R63). -/
theorem decodeWord_eq_some_iff_and_opMask (f : BitVec 8 → Instr) (op : BitVec 4) (hf : ∀ d, encode (f d) = wordOf op d)
    (w : CmdWord) : decodeWord w = some (f (dataField w)) ↔ w &&& 0xF00 = wordOf op 0 := by
  rw [everyCommandHasExactlyOneWord, hf, and_opMask_eq_iff]
  exact ⟨fun h => by rw [← h, opField_wordOf], fun h => by rw [← h, wordOf_fields]⟩

theorem decodeWord_cfgSym_iff (w : CmdWord) : decodeWord w = some (.cfgSym (dataField w)) ↔ w &&& 0xF00 = 0x100 :=
  decodeWord_eq_some_iff_and_opMask .cfgSym 1 (fun _ => rfl) w

theorem decodeWord_encPut_iff (w : CmdWord) : decodeWord w = some (.encPut (dataField w)) ↔ w &&& 0xF00 = 0x300 :=
  decodeWord_eq_some_iff_and_opMask .encPut 3 (fun _ => rfl) w

theorem decodeWord_decPut_iff (w : CmdWord) : decodeWord w = some (.decPut (dataField w)) ↔ w &&& 0xF00 = 0x500 :=
  decodeWord_eq_some_iff_and_opMask .decPut 5 (fun _ => rfl) w

/-- The rows without an operand: the mask is all ones. -/
theorem decodeWord_eq_some_iff_and_allOnes (i : Instr) (w : CmdWord) : decodeWord w = some i ↔ w &&& 0xFFF = encode i := by
  rw [everyCommandHasExactlyOneWord, show (0xFFF : CmdWord) = BitVec.allOnes 12 from rfl, BitVec.and_allOnes, eq_comm]

/-- A word that a row covers decodes to a command of the row. -/
theorem exists_decodeWord_of_covers {r : Row} {w : CmdWord} (hr : r ∈ opcodeMap) (h : r.covers w = true) :
    ∃ i : Instr, i.row = r ∧ decodeWord w = some i := by
  have hmask : w &&& r.mask = r.pattern := by simpa [Row.covers] using h
  simp only [opcodeMap, List.mem_cons, List.not_mem_nil, or_false] at hr
  rcases hr with rfl | rfl | rfl | rfl | rfl | rfl
  · exact ⟨.cfgSym (dataField w), rfl, (decodeWord_cfgSym_iff w).mpr hmask⟩
  · exact ⟨_, rfl, (decodeWord_eq_some_iff_and_allOnes _ w).mpr hmask⟩
  · exact ⟨.encPut (dataField w), rfl, (decodeWord_encPut_iff w).mpr hmask⟩
  · exact ⟨_, rfl, (decodeWord_eq_some_iff_and_allOnes _ w).mpr hmask⟩
  · exact ⟨.decPut (dataField w), rfl, (decodeWord_decPut_iff w).mpr hmask⟩
  · exact ⟨_, rfl, (decodeWord_eq_some_iff_and_allOnes _ w).mpr hmask⟩

theorem opcodeRow_of_instr (i : Instr) : Laws.OpcodeRow.Statement i := by
  cases i with
  | cfgSym s => exact Laws.OpcodeRow.cfgSym s
  | cfgCommit => exact Laws.OpcodeRow.cfgCommit
  | encPut b => exact Laws.OpcodeRow.encPut b
  | encEnd => exact Laws.OpcodeRow.encEnd
  | decPut s => exact Laws.OpcodeRow.decPut s
  | decEnd => exact Laws.OpcodeRow.decEnd

theorem wellFormedWord_iff (w : CmdWord) : wellFormedWord w = true ↔ (decodeWord w).isSome = true := by
  constructor
  · intro h
    obtain ⟨r, hr, hcovers⟩ := List.any_eq_true.mp h
    obtain ⟨i, -, hdec⟩ := exists_decodeWord_of_covers hr hcovers
    rw [hdec, Option.isSome_some]
  · intro h
    obtain ⟨i, hdec⟩ := Option.isSome_iff_exists.mp h
    obtain ⟨-, -, hwf⟩ := opcodeRow_of_instr i
    rwa [encode_of_decodeWord hdec] at hwf

/-- R62: no word satisfies two of the six pairs. A word that two rows cover decodes to a command of both, and the rows
are distinct. -/
theorem opcodeMap_disjoint : opcodeMap.Pairwise fun r r' => ∀ w : CmdWord, ¬(r.covers w = true ∧ r'.covers w = true) := by
  have hdistinct : opcodeMap.Nodup := by decide
  refine List.Pairwise.imp_of_mem (fun hr hr' hne w hboth => hne ?_) hdistinct
  obtain ⟨i, rfl, hi⟩ := exists_decodeWord_of_covers hr hboth.left
  obtain ⟨j, rfl, hj⟩ := exists_decodeWord_of_covers hr' hboth.right
  rw [Option.some.inj (hi.symm.trans hj)]

/-- Settles O2: each row by its mask, and no overlap because a covered word decodes to a command of the row. -/
theorem commandsAreTheSixMaskedPatterns : Obligations.CommandsAreTheSixMaskedPatterns :=
  ⟨fun w => ⟨decodeWord_cfgSym_iff w, decodeWord_eq_some_iff_and_allOnes .cfgCommit w,
    decodeWord_encPut_iff w, decodeWord_eq_some_iff_and_allOnes .encEnd w,
    decodeWord_decPut_iff w, decodeWord_eq_some_iff_and_allOnes .decEnd w, wellFormedWord_iff w⟩,
    opcodeMap_disjoint⟩

/-- Settles O3: each word is the command's own (R63). -/
theorem operandIsTheDataField : Obligations.OperandIsTheDataField := by
  intro d
  rw [show 0x100 + d.setWidth 12 = encode (.cfgSym d) from (append_eq_add 1 d).symm,
    show 0x300 + d.setWidth 12 = encode (.encPut d) from (append_eq_add 3 d).symm,
    show 0x500 + d.setWidth 12 = encode (.decPut d) from (append_eq_add 5 d).symm]
  exact ⟨decodeWord_encode _, decodeWord_encode _, decodeWord_encode _⟩

/-- Settles O4: each word is written out from its command. -/
theorem sampleWordsDecode : Obligations.SampleWordsDecode :=
  ⟨decodeWord_encode (.cfgSym 0x41), decodeWord_encode .cfgCommit, decodeWord_encode (.encPut 0x41), decodeWord_encode .encEnd,
    decodeWord_encode (.decPut 0x33), decodeWord_encode .decEnd⟩

end Sys2Proof.Machine

namespace Sys2Proof.Machine

/-! ### Reserved words (spec/30_encoding.md R65) -/

/-- A word decodes by its `op`: always for 1, 3 and 5, with a zero `data` field for 2, 4 and 6, never else. -/
theorem isSome_decodeWord (w : CmdWord) :
    (decodeWord w).isSome = true ↔
      ((opField w).toNat = 1 ∨ (opField w).toNat = 3 ∨ (opField w).toNat = 5) ∨
        ((opField w).toNat = 2 ∨ (opField w).toNat = 4 ∨ (opField w).toNat = 6) ∧ dataField w = 0 := by
  rw [decodeWord]
  split
  case h_7 => grind
  all_goals simp [*]

theorem decodeWord_eq_none_iff (w : CmdWord) :
    decodeWord w = none ↔
      opField w = 0 ∨ 7 ≤ (opField w).toNat ∨ ((opField w = 2 ∨ opField w = 4 ∨ opField w = 6) ∧ dataField w ≠ 0) := by
  rw [← Option.not_isSome_iff_eq_none, isSome_decodeWord]
  by_cases hd : dataField w = 0 <;>
    simp only [hd, ← BitVec.toNat_inj, BitVec.reduceToNat, ne_eq, not_true, not_false_iff, and_true, and_false, or_false] <;>
    omega

/-- Counting block by block. -/
theorem countP_range_mul (p : Nat → Bool) (m n : Nat) :
    (List.range (m * n)).countP p = ((List.range n).map fun k => (List.range m).countP fun d => p (m * k + d)).sum := by
  induction n with
  | zero => rfl
  | succ n ih =>
    rw [Nat.mul_succ, List.range_add, List.countP_append, ih, List.countP_map, List.range_succ, List.map_append,
      List.sum_append, List.map_singleton, List.sum_singleton]
    rfl

/-- How many words with the given `op` are commands. -/
def commandsOfOp (op : Nat) : Nat :=
  if op = 1 ∨ op = 3 ∨ op = 5 then 256 else if op = 2 ∨ op = 4 ∨ op = 6 then 1 else 0

theorem toNat_opField_ofNat {k d : Nat} (hk : k < 16) (hd : d < 256) : (opField (BitVec.ofNat 12 (256 * k + d))).toNat = k := by
  simp [opField, Nat.shiftRight_eq_div_pow]
  omega

theorem dataField_ofNat_eq_zero_iff {k d : Nat} (hd : d < 256) : dataField (BitVec.ofNat 12 (256 * k + d)) = 0 ↔ d = 0 := by
  simp [← BitVec.toNat_inj, dataField]
  omega

theorem countP_decodes_of_op {k : Nat} (hk : k < 16) :
    ((List.range 256).countP fun d => (decodeWord (BitVec.ofNat 12 (256 * k + d))).isSome) = commandsOfOp k := by
  have hfields : ((List.range 256).countP fun d => (decodeWord (BitVec.ofNat 12 (256 * k + d))).isSome) =
      (List.range 256).countP fun d => (k = 1 ∨ k = 3 ∨ k = 5) ∨ (k = 2 ∨ k = 4 ∨ k = 6) ∧ d = 0 :=
    List.countP_congr fun d hd => by
      have hd := List.mem_range.mp hd
      rw [isSome_decodeWord, toNat_opField_ofNat hk hd, dataField_ofNat_eq_zero_iff hd, decide_eq_true_iff]
  have hzero : ((List.range 256).countP fun d => d = 0) = 1 := by
    simpa [List.count_eq_countP, beq_eq_decide] using List.count_eq_one_of_mem (List.nodup_range (n := 256)) (a := 0) (by decide)
  rw [hfields, commandsOfOp]
  split
  case isTrue hany => simp [hany]
  case isFalse hany =>
    split
    case isTrue hnone => simp [hany, hnone, hzero]
    case isFalse hnever => simp [hany, hnever]

/-- R65: 3 * 256 + 3 words are commands. -/
theorem length_filter_decodes :
    ((List.range 4096).filter fun n => (decodeWord (BitVec.ofNat 12 n)).isSome).length = 771 := by
  rw [← List.countP_eq_length_filter, show 4096 = 256 * 16 from rfl, countP_range_mul,
    List.map_congr_left fun k hk => countP_decodes_of_op (List.mem_range.mp hk)]
  rfl

/-- Settles O5: a word decodes by its `op`, the commands are counted `op` by `op`, and a reserved word raises one `FAULT`. -/
theorem reservedWordsAreRefused : Obligations.ReservedWordsAreRefused := by
  refine ⟨decodeWord_eq_none_iff, ?_, length_filter_decodes, fun s w rest hinp hdec => step_of_reserved hinp hdec⟩
  have hall := List.length_eq_length_filter_add (l := List.range 4096) fun n => (decodeWord (BitVec.ofNat 12 n)).isSome
  simp only [Option.not_isSome, length_filter_decodes, List.length_range] at hall
  omega

end Sys2Proof.Machine

namespace Sys2Proof.Machine

/-! ### What a command answers (spec/30_encoding.md R64, R71; 42_encode_commands.md R122) -/

theorem drain_groups_length_le (width rounds acc cnt : Nat) : (drain width rounds acc cnt).groups.length ≤ rounds := by
  induction rounds generalizing acc cnt with
  | zero => exact Nat.le_refl 0
  | succ rounds ih =>
    rw [drain]
    split
    · exact Nat.succ_le_succ (ih _ _)
    · exact Nat.zero_le _

theorem State.encoderBuffer_groups_length_le (s : State) (b : Byte) : (s.encoderBuffer b).groups.length ≤ 2 :=
  drain_groups_length_le ..

theorem State.decoderBuffer_groups_length_le (s : State) (i : Group) : (s.decoderBuffer i).groups.length ≤ 1 :=
  drain_groups_length_le ..

theorem State.paddedGroup_length_le (s : State) : s.paddedGroup.length ≤ 1 := by
  rw [State.paddedGroup]
  split
  · exact Nat.le_refl 1
  · exact Nat.zero_le 1

/-- The responses of a command that the mode makes legal, by their kind and status (R71). -/
inductive Answers : Instr → Response → Prop
  | committed : Answers .cfgCommit (.cdone .ok)
  | notCommitted : Answers .cfgCommit (.cdone .invalidAlphabet)
  | symbol (b : Byte) (c : Symbol) : Answers (.encPut b) (.esym c)
  | lastSymbol (c : Symbol) : Answers .encEnd (.esym c)
  | encoded : Answers .encEnd (.edone .ok)
  | byte (c : Symbol) (b : Byte) : Answers (.decPut c) (.dbyte b)
  | decoded : Answers .decEnd (.ddone .ok)
  | notDecoded : Answers .decEnd (.ddone .decodeSymbolNotFound)

/-- The most responses that a command gives: a byte takes out at most two groups (R122), and an end gives at most
one group and its closing word. -/
def maxAnswers : Instr → Nat
  | .cfgSym _ => 0
  | .cfgCommit => 1
  | .encPut _ => 2
  | .encEnd => 2
  | .decPut _ => 1
  | .decEnd => 1

theorem maxAnswers_le_two (i : Instr) : maxAnswers i ≤ 2 := by cases i <;> simp [maxAnswers]

/-- Everything that a legal command appends to the log. -/
theorem exec_legal_emits {i : Instr} {s t : State} (hl : legalIn i s.mode = true) (hx : exec i s = .next t) :
    ∃ rs : List Response, t.rsp = s.rsp ++ rs.map Response.word ∧ rs.length ≤ maxAnswers i ∧ ∀ r ∈ rs, Answers i r := by
  cases i with
  | cfgSym c =>
    obtain ⟨hm, -⟩ | ⟨-, -, rfl⟩ | ⟨-, -, rfl⟩ := execCfgSym_next hx
    · simp [legalIn, hm] at hl
    · exact ⟨[], by rw [State.offerSymbol_eq]; simp, Nat.le_refl 0, nofun⟩
    · exact ⟨[], by simp, Nat.le_refl 0, nofun⟩
  | cfgCommit =>
    obtain ⟨hm, -⟩ | ⟨-, -, -, rfl⟩ | ⟨-, -, -, rfl⟩ := execCfgCommit_next hx
    · simp [legalIn, hm] at hl
    · exact ⟨[.cdone .ok], by rw [State.writeRevAll_eq]; rfl, Nat.le_refl 1, by simpa using .committed⟩
    · exact ⟨_, rfl, Nat.le_refl 1, by simpa using .notCommitted⟩
  | encPut b =>
    obtain ⟨hm, -⟩ | ⟨-, -, rfl⟩ := execEncPut_next hx
    · simp [legalIn, hm] at hl
    · refine ⟨_, rfl, by simpa [maxAnswers] using s.encoderBuffer_groups_length_le b, ?_⟩
      simp only [List.forall_mem_map]
      exact fun g _ => .symbol b _
  | encEnd =>
    obtain ⟨hm, -⟩ | ⟨-, -, rfl⟩ := execEncEnd_next hx
    · simp [legalIn, hm] at hl
    · refine ⟨_, rfl, by simpa [maxAnswers] using s.paddedGroup_length_le, ?_⟩
      simp only [List.forall_mem_append, List.forall_mem_map, List.forall_mem_singleton]
      exact ⟨fun g _ => .lastSymbol _, .encoded⟩
  | decPut c =>
    obtain ⟨hm, -⟩ | ⟨-, -, rfl⟩ | ⟨-, -, -, rfl⟩ | ⟨-, -, -, i, -, rfl⟩ := execDecPut_next hx
    · simp [legalIn, hm] at hl
    · exact ⟨[], by simp, Nat.zero_le 1, nofun⟩
    · exact ⟨[], by simp, Nat.zero_le 1, nofun⟩
    · refine ⟨_, rfl, by simpa [maxAnswers] using s.decoderBuffer_groups_length_le i, ?_⟩
      simp only [List.forall_mem_map]
      exact fun g _ => .byte c _
  | decEnd =>
    obtain ⟨hm, -⟩ | ⟨-, rfl⟩ := execDecEnd_next hx
    · simp [legalIn, hm] at hl
    · refine ⟨_, rfl, Nat.le_refl 1, ?_⟩
      cases s.derr
      · simpa using .decoded
      · simpa using .notDecoded

theorem Answers.word_ne_fault {i : Instr} {r : Response} (h : Answers i r) : r.word ≠ 0xF03 := by
  intro hword
  have hkind : r.kind = 0xF := by rw [← kindField_word, hword]; rfl
  cases h <;> simp [Response.kind] at hkind

/-- The table of R64, as the statements write it. -/
theorem legalIn_iff (i : Instr) (m : Mode) :
    legalIn i m = true ↔
      ((∃ c, i = .cfgSym c) ∨ i = .cfgCommit) ∧ m = .config ∨
        (i.isEncoder = true ∨ i.isDecoder = true) ∧ m = .ready := by
  cases i <;> simp [legalIn, Instr.isEncoder, Instr.isDecoder]

/-- Settles O6: the mode check answers the one `FAULT`, and a legal command answers with no word of kind 0xF. -/
theorem legalityByMode : Obligations.LegalityByMode := by
  intro i s
  rw [← legalIn_iff, Bool.not_eq_true]
  refine ⟨exec_of_not_legal, fun hl t hx => ?_⟩
  obtain ⟨rs, hrsp, -, hanswers⟩ := exec_legal_emits hl hx
  refine ⟨_, hrsp, fun hmem => ?_⟩
  obtain ⟨r, hr, hword⟩ := List.mem_map.mp hmem
  exact (hanswers r hr).word_ne_fault hword

/-- A word of the response map R71. -/
def IsResponseWord (w : RspWord) : Prop :=
  (∃ c : Symbol, w = 0x300 + c.setWidth 12) ∨ (∃ b : Byte, w = 0x500 + b.setWidth 12) ∨
    w ∈ ([0x200, 0x202, 0x400, 0x600, 0x601, 0xF03] : List RspWord)

theorem isResponseWord_fault : IsResponseWord (Response.fault .illegalCommand).word := .inr (.inr (by decide))

theorem Answers.isResponseWord {i : Instr} {r : Response} (h : Answers i r) : IsResponseWord r.word := by
  cases h with
  | symbol b c => exact .inl ⟨c, word_esym c⟩
  | lastSymbol c => exact .inl ⟨c, word_esym c⟩
  | byte c b => exact .inr (.inl ⟨b, word_dbyte b⟩)
  | committed => exact .inr (.inr (by decide))
  | notCommitted => exact .inr (.inr (by decide))
  | encoded => exact .inr (.inr (by decide))
  | decoded => exact .inr (.inr (by decide))
  | notDecoded => exact .inr (.inr (by decide))

/-- A command that the mode does not make legal appends one `FAULT`, any other its answers. -/
theorem exec_emits {i : Instr} {s t : State} (hx : exec i s = .next t) :
    ∃ l, t.rsp = s.rsp ++ l ∧ l.length ≤ max 1 (maxAnswers i) ∧ ∀ w ∈ l, IsResponseWord w := by
  cases hl : legalIn i s.mode with
  | false =>
    obtain rfl : s.emits [.fault .illegalCommand] = t := by simpa [exec_of_not_legal hl] using hx
    exact ⟨_, rfl, Nat.le_max_left .., by simpa using isResponseWord_fault⟩
  | true =>
    obtain ⟨rs, hrsp, hlen, hanswers⟩ := exec_legal_emits hl hx
    refine ⟨_, hrsp, by rw [List.length_map]; omega, ?_⟩
    simp only [List.forall_mem_map]
    exact fun r hr => (hanswers r hr).isResponseWord

theorem step_emits {s t : State} (hstep : step s = .next t) :
    ∃ l, t.rsp = s.rsp ++ l ∧ l.length ≤ 2 ∧ ∀ w ∈ l, IsResponseWord w := by
  obtain ⟨-, rfl⟩ | ⟨rest, -, rfl⟩ | ⟨w, rest, -, -, rfl⟩ | ⟨w, rest, i, -, -, hx⟩ := step_next hstep
  · exact ⟨[], by simp, Nat.zero_le 2, nofun⟩
  · exact ⟨[], by simp, Nat.zero_le 2, nofun⟩
  · exact ⟨_, rfl, Nat.le_succ 1, by simpa using isResponseWord_fault⟩
  · obtain ⟨l, hrsp, hlen, hwords⟩ := exec_emits hx
    exact ⟨l, hrsp, hlen.trans (max_le (by decide) (maxAnswers_le_two i)), hwords⟩

theorem maxAnswers_le_one {i : Instr} (hi : i.isDecoder = true ∨ i = .cfgCommit) : maxAnswers i ≤ 1 := by
  cases i with
  | decPut c => exact Nat.le_refl 1
  | decEnd => exact Nat.le_refl 1
  | cfgCommit => exact Nat.le_refl 1
  | cfgSym c => exact Nat.zero_le 1
  | encPut b => simp [Instr.isDecoder] at hi
  | encEnd => simp [Instr.isDecoder] at hi

/-- Settles O24: a step appends nothing, one `FAULT`, or a command's answers. -/
theorem responsesOfOneStep : Obligations.ResponsesOfOneStep := by
  refine ⟨fun s t => step_emits, fun i s t hi hx => ?_⟩
  obtain ⟨l, hrsp, hlen, -⟩ := exec_emits hx
  exact ⟨l, hrsp, hlen.trans (max_le (Nat.le_refl 1) (maxAnswers_le_one hi))⟩

end Sys2Proof.Machine

namespace Sys2Proof.Machine

/-! ### How commands are written (spec/30_encoding.md R75, R76) -/

/-- A character that the scanner reads as part of a bare word: it opens no comment, is neither of the quotes (0x27, 0x22) and
separates nothing. -/
abbrev PlainChar (c : Char) : Prop := c ≠ ';' ∧ c ≠ '\x27' ∧ c ≠ '\x22' ∧ c ≠ ' ' ∧ c ≠ '\t'

theorem scan_plainChar {c : Char} (hc : PlainChar c) (w cs : List Char) :
    scan (.outside w) (c :: cs) = scan (.outside (c :: w)) cs := by
  obtain ⟨hcomment, hquote, htext, hspace, htab⟩ := hc
  rw [scan]
  · rw [if_neg (by simp [hspace, htab])]
  all_goals simp_all

/-- A row of such characters is read into the word. -/
theorem scan_plain {cs : List Char} (hcs : ∀ c ∈ cs, PlainChar c) (w rest : List Char) :
    scan (.outside w) (cs ++ rest) = scan (.outside (cs.reverse ++ w)) rest := by
  induction cs generalizing w with
  | nil => rfl
  | cons c cs ih =>
    rw [List.cons_append, scan_plainChar (hcs c (.head cs)), ih fun d hd => hcs d (.tail c hd)]
    simp

theorem endWord_reverse {cs : List Char} (h : cs ≠ []) : endWord cs.reverse = [.word cs] := by
  cases hr : cs.reverse with
  | nil => simp [h] at hr
  | cons d ds => rw [endWord, ← hr, List.reverse_reverse]

theorem scan_word {cs : List Char} (h : cs ≠ []) (hcs : ∀ c ∈ cs, PlainChar c) :
    scan (.outside []) cs = some [.word cs] := by
  rw [← List.append_nil cs, scan_plain hcs, scan]
  simp [endWord_reverse h]

theorem scan_two_words {cs ds : List Char} (hcs : cs ≠ []) (hplain : ∀ c ∈ cs, PlainChar c) (hds : ds ≠ [])
    (hplain' : ∀ c ∈ ds, PlainChar c) : scan (.outside []) (cs ++ ' ' :: ds) = some [.word cs, .word ds] := by
  rw [scan_plain hplain, scan, scan_word hds hplain']
  · simp [endWord_reverse hcs]
  all_goals simp

theorem plainChar_hexDigit {d : Nat} (hd : d < 16) : PlainChar (hexDigit d) := by
  revert d
  decide

theorem digitValue_hexDigit {d : Nat} (hd : d < 16) : digitValue (hexDigit d) = some d := by
  revert d
  decide

theorem operandOf_hexOperand (d : BitVec 8) : operandOf (.word (hexOperand d)) = some d := by
  have hhigh : d.toNat / 16 < 16 := by omega
  have hlow : d.toNat % 16 < 16 := by omega
  have hvalue : numberOf (hexOperand d) = some d.toNat := by
    simp [hexOperand, numberOf, digitsValue, digitValue_hexDigit hhigh, digitValue_hexDigit hlow, hhigh, hlow]
    omega
  simp [operandOf, hvalue, d.isLt]

theorem plainChar_hexOperand (d : BitVec 8) : ∀ c ∈ hexOperand d, PlainChar c := by
  simp only [hexOperand, List.forall_mem_cons]
  exact ⟨by decide, by decide, plainChar_hexDigit (by omega), plainChar_hexDigit (by omega), nofun⟩

/-- A command whose mnemonic takes one operand, written with the operand in hexadecimal. -/
theorem parseLine_hexOperand {m : List Char} {f : BitVec 8 → Instr} (hne : m ≠ []) (hplain : ∀ c ∈ m, PlainChar c)
    (hline : lineOf m = withOperand f) (d : BitVec 8) : parseLine (m ++ ' ' :: hexOperand d) = some (.instr (f d)) := by
  rw [parseLine, scan_two_words hne hplain (by simp [hexOperand]) (plainChar_hexOperand d)]
  simp [hline, withOperand, operandOf_hexOperand]

theorem parseLine_listing (i : Instr) : parseLine (listing i) = some (.instr i) := by
  cases i with
  | cfgSym s => exact parseLine_hexOperand (m := "CFG.SYM".toList) (by simp) (by simp [PlainChar]) rfl s
  | cfgCommit => decide
  | encPut b => exact parseLine_hexOperand (m := "ENC.PUT".toList) (by simp) (by simp [PlainChar]) rfl b
  | encEnd => decide
  | decPut s => exact parseLine_hexOperand (m := "DEC.PUT".toList) (by simp) (by simp [PlainChar]) rfl s
  | decEnd => decide

/-- Settles O10: the scanner, the mnemonics and the number reader take a listing back to its command; the examples evaluate. -/
theorem commandLinesAssemble : Obligations.CommandLinesAssemble := by
  refine ⟨fun i => ?_, by decide, by decide, by decide, by decide⟩
  simp [assemble, parseLine_listing, Line.events]

/-- The shape of all three expansions: one command per operand, then the closing command. -/
theorem map_encode_expansion (f : BitVec 8 → Instr) (ops : List (BitVec 8)) (close : Instr) :
    (ops.map f ++ [close]).map encode = ops.map (fun d => encode (f d)) ++ [encode close] := by
  rw [List.map_append, List.map_map, List.map_singleton]
  rfl

/-- Settles O11: each expansion is its operands' words and the closing command's. -/
theorem pseudoInstructionsExpand : Obligations.PseudoInstructionsExpand :=
  ⟨fun cs => map_encode_expansion .cfgSym cs .cfgCommit, fun M => map_encode_expansion .encPut M .encEnd,
    fun T => map_encode_expansion .decPut T .decEnd⟩

end Sys2Proof.Machine

namespace Sys2Proof.Machine

/-! ### The default alphabet (spec/30_encoding.md R74) -/

/-- Rows that pair entries with their indices, and miss no index, are the reverse table of the alphabet. -/
theorem Alphabet.rev_eq_find? {A : Alphabet} {rows : List (Symbol × Group)} (hsound : ∀ p ∈ rows, A.fwd p.2 = p.1)
    (hall : ∀ i : Group, i ∈ rows.map Prod.snd) (c : Symbol) :
    A.rev c = (rows.find? fun p => p.1 == c).map Prod.snd := by
  have hd : PairwiseDistinct A.codes := (pairwiseDistinct_iff_nodup _).mpr A.distinct
  cases hfind : rows.find? fun p => p.1 == c with
  | some p =>
    have hc : p.1 = c := by simpa using List.find?_some hfind
    exact (indexOf_eq_some_iff hd).mpr ((hsound p (List.mem_of_find?_eq_some hfind)).trans hc)
  | none =>
    refine indexOf_eq_none.mpr fun i hi => ?_
    obtain ⟨p, hp, rfl⟩ := List.mem_map.mp (hall i)
    have hne : p.1 ≠ c := by simpa using List.find?_eq_none.mp hfind p hp
    exact hne ((hsound p hp).symm.trans hi)

/-- Settles O47: each listed code is the alphabet's entry at its index, and the 32 indices are all listed. -/
theorem defaultAlphabetReverseTable : Obligations.DefaultAlphabetReverseTable := by
  rintro ⟨codes, hdistinct⟩ rfl
  apply Alphabet.rev_eq_find?
  · simp [Alphabet.fwd, Config.defaultAlphabet]
  · decide

end Sys2Proof.Machine

namespace Sys2Proof.Machine

/-! ### Bit sequences as numbers (spec/00_scope.md R9, 40_codec_functions.md R94, R97) -/

theorem natOfBits_concat (l : List Bool) (b : Bool) : natOfBits (l ++ [b]) = 2 * natOfBits l + b.toNat := by
  simp [natOfBits]

theorem natOfBits_append (a b : List Bool) : natOfBits (a ++ b) = natOfBits a * 2 ^ b.length + natOfBits b := by
  induction b using List.reverseRecOn with
  | nil => simp [natOfBits]
  | append_singleton b x ih =>
    rw [← List.append_assoc, natOfBits_concat, natOfBits_concat, ih, List.length_append, List.length_singleton, Nat.pow_succ]
    ring

@[simp] theorem natOfBits_replicate_false (k : Nat) : natOfBits (List.replicate k false) = 0 := by
  induction k with
  | zero => rfl
  | succ k ih => rw [List.replicate_succ', natOfBits_concat, ih]; rfl

/-- Bit `k` of the number is the `k`-th bit from the end of the sequence. -/
theorem testBit_natOfBits (l : List Bool) (k : Nat) : (natOfBits l).testBit k = l.reverse[k]?.getD false := by
  induction l using List.reverseRecOn generalizing k with
  | nil => simp [natOfBits]
  | append_singleton l b ih =>
    rw [natOfBits_concat, List.reverse_concat]
    cases k with
    | zero => cases b <;> simp [Nat.testBit_zero, Nat.add_mod]
    | succ k =>
      have hhalf : (2 * natOfBits l + b.toNat) / 2 = natOfBits l := by
        have hb := b.toNat_lt
        omega
      rw [Nat.testBit_succ, hhalf, ih, List.getElem?_cons_succ]

theorem natOfBits_lt (l : List Bool) : natOfBits l < 2 ^ l.length := by
  refine Nat.lt_pow_two_of_testBit _ fun k hk => ?_
  rw [testBit_natOfBits, List.getElem?_eq_none (by simpa using hk), Option.getD_none]

/-- Writing a value out and reading it back. -/
@[simp] theorem natOfBits_bitsMsb {w : Nat} (v : BitVec w) : natOfBits (bitsMsb v) = v.toNat := by
  refine Nat.eq_of_testBit_eq fun k => ?_
  rw [testBit_natOfBits, BitVec.testBit_toNat]
  by_cases hk : k < w
  · rw [List.getElem?_reverse (by simpa using hk), length_bitsMsb, getElem?_bitsMsb v (by omega), Option.getD_some]
    congr 1
    omega
  · rw [List.getElem?_eq_none (by simpa using hk), Option.getD_none, BitVec.getLsbD_of_ge v k (by omega)]

/-- Reading a sequence of `w` bits and writing it out again. -/
theorem bitsMsb_ofNat_natOfBits {w : Nat} {l : List Bool} (hl : l.length = w) : bitsMsb (BitVec.ofNat w (natOfBits l)) = l := by
  subst hl
  refine List.ext_getElem? fun k => ?_
  by_cases hk : k < l.length
  · rw [getElem?_bitsMsb _ hk, BitVec.getLsbD_ofNat, testBit_natOfBits, List.getElem?_reverse (by omega),
      show l.length - 1 - (l.length - 1 - k) = k by omega, List.getElem?_eq_getElem hk, Option.getD_some,
      decide_eq_true (by omega : l.length - 1 - k < l.length), Bool.true_and]
  · rw [List.getElem?_eq_none (by simpa using hk), List.getElem?_eq_none (by omega)]

/-- A list of values written out bit by bit is one big-endian number in base `2 ^ w`. -/
theorem natOfBits_flatMap_bitsMsb {w : Nat} (vs : List (BitVec w)) :
    natOfBits (vs.flatMap bitsMsb) = ∑ i : Fin vs.length, vs[i].toNat * (2 ^ w) ^ (vs.length - 1 - i.val) := by
  induction vs with
  | nil => rfl
  | cons v vs ih =>
    rw [List.flatMap_cons, natOfBits_append, natOfBits_bitsMsb, length_flatMap_bitsMsb, ih, Nat.pow_mul]
    simp only [List.length_cons, Fin.sum_univ_succ]
    congr 1
    refine Finset.sum_congr rfl fun i _ => ?_
    simp [Nat.sub_sub, Nat.add_comm]

/-! ### Cutting a bit sequence into fields, and writing the fields out again (spec/20_memory.md R41, R42) -/

/-- The first `k` fields of `w` bits: how `Encode` cuts groups and `Decode` cuts bytes (`groupsOf_eq_cut`, `bytesOf_eq_cut`). -/
def cut (w k : Nat) (S : List Bool) : List (BitVec w) := (List.range k).map (fieldAt w S)

@[simp] theorem length_cut (w k : Nat) (S : List Bool) : (cut w k S).length = k := by simp [cut]

theorem cut_succ (w k : Nat) (S : List Bool) : cut w (k + 1) S = cut w k S ++ [fieldAt w S k] := by
  simp [cut, List.range_succ]

theorem bitsMsb_fieldAt {w j : Nat} {S : List Bool} (h : w * (j + 1) ≤ S.length) :
    bitsMsb (fieldAt w S j) = (S.drop (w * j)).take w := by
  refine bitsMsb_ofNat_natOfBits ?_
  rw [Nat.mul_succ] at h
  rw [List.length_take, List.length_drop]
  omega

/-- Writing the fields out gives the bits that were cut. -/
theorem flatMap_bitsMsb_cut {w k : Nat} {S : List Bool} (h : w * k ≤ S.length) : (cut w k S).flatMap bitsMsb = S.take (w * k) := by
  induction k with
  | zero => rfl
  | succ k ih =>
    rw [cut_succ, List.flatMap_append, ih ((Nat.mul_le_mul_left w k.le_succ).trans h), List.flatMap_singleton,
      bitsMsb_fieldAt h, Nat.mul_succ, List.take_add]

/-- A list of values is known from its bits: each value takes the same positive number of them. -/
theorem flatMap_bitsMsb_injective {w : Nat} (hw : 0 < w) : Function.Injective fun vs : List (BitVec w) => vs.flatMap bitsMsb := by
  intro vs us h
  induction vs generalizing us with
  | nil =>
    have hlen := congrArg List.length h
    simp only [length_flatMap_bitsMsb, List.length_nil, Nat.mul_zero] at hlen
    exact (List.length_eq_zero_iff.mp ((Nat.mul_eq_zero.mp hlen.symm).resolve_left hw.ne')).symm
  | cons v vs ih =>
    cases us with
    | nil => simpa [hw.ne'] using congrArg List.length h
    | cons u us =>
      obtain ⟨hhead, htail⟩ := List.append_inj h (by simp)
      have hvu : v = u := BitVec.eq_of_toNat_eq (by rw [← natOfBits_bitsMsb v, hhead, natOfBits_bitsMsb])
      rw [hvu, ih htail]

/-- Only the bits that are cut matter. -/
theorem cut_append {w k : Nat} {S : List Bool} (R : List Bool) (h : w * k ≤ S.length) : cut w k (S ++ R) = cut w k S := by
  induction k with
  | zero => rfl
  | succ k ih =>
    have hk : w * k ≤ S.length := (Nat.mul_le_mul_left w k.le_succ).trans h
    rw [Nat.mul_succ] at h
    rw [cut_succ, cut_succ, ih hk, fieldAt, fieldAt, List.drop_append_of_le_length hk,
      List.take_append_of_le_length (by rw [List.length_drop]; omega)]

/-- Cutting the bits of a list of values gives the values. -/
theorem cut_flatMap_bitsMsb {w : Nat} (hw : 0 < w) (vs : List (BitVec w)) : cut w vs.length (vs.flatMap bitsMsb) = vs := by
  refine flatMap_bitsMsb_injective hw ?_
  have hlen := length_flatMap_bitsMsb vs
  simp only [flatMap_bitsMsb_cut hlen.ge, ← hlen, List.take_length]

theorem take_flatMap_bitsMsb {w : Nat} (vs : List (BitVec w)) (k : Nat) :
    (vs.take k).flatMap bitsMsb = (vs.flatMap bitsMsb).take (w * k) := by
  induction vs generalizing k with
  | nil => simp
  | cons v vs ih =>
    cases k with
    | zero => simp
    | succ k =>
      rw [List.take_succ_cons, List.flatMap_cons, List.flatMap_cons, ih, Nat.mul_succ, Nat.add_comm (w * k), List.take_append,
        List.take_of_length_le (l := bitsMsb v) (by simp), length_bitsMsb, Nat.add_sub_cancel_left]

/-- A field, read off the whole sequence as a number. -/
theorem fieldAt_eq_ofNat_div_mod {w j : Nat} {S : List Bool} (h : w * (j + 1) ≤ S.length) :
    fieldAt w S j = BitVec.ofNat w (natOfBits S / 2 ^ (S.length - w * (j + 1)) % 2 ^ w) := by
  have hsplit : S = (S.take (w * j) ++ (S.drop (w * j)).take w) ++ S.drop (w * (j + 1)) := by
    rw [← List.take_add, ← Nat.mul_succ, List.take_append_drop]
  have hfield : ((S.drop (w * j)).take w).length = w := by rw [← bitsMsb_fieldAt h, length_bitsMsb]
  have hlow := natOfBits_lt (S.drop (w * (j + 1)))
  have hmid := natOfBits_lt ((S.drop (w * j)).take w)
  rw [List.length_drop] at hlow
  rw [hfield] at hmid
  have hvalue : natOfBits S / 2 ^ (S.length - w * (j + 1)) =
      natOfBits (S.take (w * j)) * 2 ^ w + natOfBits ((S.drop (w * j)).take w) := by
    conv_lhs => rw [hsplit]
    rw [natOfBits_append, natOfBits_append, hfield, List.length_drop, ← hsplit, Nat.add_comm,
      Nat.add_mul_div_right _ _ (by positivity), Nat.div_eq_of_lt hlow, Nat.zero_add]
  rw [hvalue, Nat.mul_add_mod', Nat.mod_eq_of_lt hmid, fieldAt]

end Sys2Proof.Machine

namespace Sys2Proof.Machine

/-! ### The length laws (spec/40_codec_functions.md R98) -/

/-- R98 (a): the zero bits fill the last group and are fewer than one group. -/
theorem tokenLength_bounds (L : Nat) : 8 * L ≤ 5 * tokenLength L ∧ 5 * tokenLength L ≤ 8 * L + 4 := by
  rw [tokenLength]
  omega

/-- R98 (b): a token's length determines its message's length. -/
@[simp] theorem messageLength_tokenLength (L : Nat) : messageLength (tokenLength L) = L := by
  rw [messageLength, tokenLength]
  omega

/-- R98 (c): the slack is less than a byte. -/
theorem messageLength_bounds (n : Nat) : 5 * n ≤ 8 * messageLength n + 7 ∧ 8 * messageLength n ≤ 5 * n := by
  rw [messageLength]
  omega

/-- R98 (d): the canonical lengths are those that encoding reaches. -/
theorem tokenLength_messageLength_iff {n : Nat} : tokenLength (messageLength n) = n ↔ CanonicalLength n := by
  rw [tokenLength, messageLength, CanonicalLength]
  omega

theorem tokenLength_messageLength_of_not {n : Nat} (h : ¬CanonicalLength n) : tokenLength (messageLength n) = n - 1 := by
  rw [CanonicalLength] at h
  rw [tokenLength, messageLength]
  omega

/-- Settles O55: each law is linear arithmetic over the two quotients. -/
theorem lengthLaws : Obligations.LengthLaws := fun L n =>
  ⟨tokenLength_bounds L, messageLength_tokenLength L, messageLength_bounds n, tokenLength_messageLength_iff,
    tokenLength_messageLength_of_not⟩

theorem messageLength_le (n : Nat) : 8 * messageLength n ≤ 5 * n := (messageLength_bounds n).2

theorem tokenLength_messageLength_le (n : Nat) : tokenLength (messageLength n) ≤ n := by
  by_cases h : CanonicalLength n
  · exact (tokenLength_messageLength_iff.mpr h).le
  · exact (tokenLength_messageLength_of_not h).le.trans n.pred_le

/-! ### The two look-ups (spec/40_codec_functions.md R90, R91, R92) -/

namespace Alphabet

theorem pairwiseDistinct (A : Alphabet) : PairwiseDistinct A.codes := (pairwiseDistinct_iff_nodup _).mpr A.distinct

theorem rev_eq_some_iff (A : Alphabet) {c : Symbol} {i : Group} : A.rev c = some i ↔ A.fwd i = c :=
  indexOf_eq_some_iff A.pairwiseDistinct

theorem rev_eq_none_iff (A : Alphabet) {c : Symbol} : A.rev c = none ↔ ∀ i : Group, A.fwd i ≠ c := indexOf_eq_none

@[simp] theorem rev_fwd (A : Alphabet) (i : Group) : A.rev (A.fwd i) = some i := A.rev_eq_some_iff.mpr rfl

theorem fwd_injective (A : Alphabet) : Function.Injective A.fwd := fun i j h =>
  Option.some.inj (by rw [← A.rev_fwd i, h, A.rev_fwd])

theorem fwd_mem_codes (A : Alphabet) (i : Group) : A.fwd i ∈ A.codes.toList := by simp [fwd]

/-- A symbol is foreign exactly when the alphabet does not list it. -/
theorem rev_eq_none_iff_notMem (A : Alphabet) {c : Symbol} : A.rev c = none ↔ c ∉ A.codes.toList := by
  refine ⟨fun h hc => ?_, fun h => A.rev_eq_none_iff.mpr fun i hi => h (hi ▸ A.fwd_mem_codes i)⟩
  obtain ⟨k, hk, rfl⟩ := List.mem_iff_getElem.mp hc
  rw [Vector.length_toList] at hk
  exact A.rev_eq_none_iff.mp h (BitVec.ofNat 5 k) (by simp [fwd, Nat.mod_eq_of_lt hk])

theorem isSome_rev_iff (A : Alphabet) {c : Symbol} : (A.rev c).isSome = true ↔ c ∈ A.codes.toList := by
  rw [Option.isSome_iff_ne_none, ne_eq, A.rev_eq_none_iff_notMem, not_not]

/-- R92: the numbers of the found codes are those of the alphabet's entries, each once. -/
theorem found_codes_perm (A : Alphabet) :
    ((List.range 256).filter fun n => (A.rev (BitVec.ofNat 8 n)).isSome).Perm (A.codes.toList.map BitVec.toNat) := by
  have hnodup : (A.codes.toList.map BitVec.toNat).Nodup := A.distinct.map fun _ _ => BitVec.eq_of_toNat_eq
  refine (List.perm_ext_iff_of_nodup (List.nodup_range.filter _) hnodup).mpr fun n => ?_
  simp only [List.mem_filter, List.mem_range, A.isSome_rev_iff, List.mem_map]
  constructor
  · rintro ⟨hn, hmem⟩
    exact ⟨_, hmem, by simpa using hn⟩
  · rintro ⟨c, hc, rfl⟩
    exact ⟨c.isLt, by simpa using hc⟩

end Alphabet

/-- Settles O46: the 32 found codes are the alphabet's entries. -/
theorem lookupsAreMutuallyInverse : Obligations.LookupsAreMutuallyInverse := by
  refine fun A => ⟨A.rev_fwd, fun c i => A.rev_eq_some_iff.mp, ?_⟩
  rw [A.found_codes_perm.length_eq, List.length_map, Vector.length_toList]

/-- Settles O45: the invariant makes `RIDX` the inverse of the alphabet that `FWD` reads. -/
theorem blockLookupsAreFwdAndRev : Obligations.BlockLookupsAreFwdAndRev := by
  intro A s hinv hready halpha
  have hfwd (i : Group) : s.readFwd i = A.fwd i := by simp only [readFwd_eq_getElem, halpha, Alphabet.fwd]
  refine ⟨hfwd, fun c => ⟨Option.ext fun i => ?_, fun i => A.rev_eq_some_iff, A.rev_eq_none_iff⟩⟩
  rw [lookupRev_eq_some, (hinv.ready_inverse hready).found, hfwd, A.rev_eq_some_iff]

/-! ### Looking up a whole token -/

theorem mapM_eq_some_iff_forall₂ {α β : Type} {f : α → Option β} {l : List α} {l' : List β} :
    l.mapM f = some l' ↔ List.Forall₂ (fun a b => f a = some b) l l' := by
  induction l generalizing l' with
  | nil => simp [eq_comm]
  | cons a l ih =>
    cases l' with
    | nil => simp [List.mapM_cons, Option.bind_eq_some_iff]
    | cons b l' => simp [List.mapM_cons, Option.bind_eq_some_iff, ih]

theorem mapM_eq_none_iff {α β : Type} {f : α → Option β} {l : List α} : l.mapM f = none ↔ ∃ a ∈ l, f a = none := by
  induction l with
  | nil => simp
  | cons a l ih =>
    cases ha : f a with
    | none => simp [List.mapM_cons, ha]
    | some b =>
      have htail : (a :: l).mapM f = none ↔ l.mapM f = none := by cases hl : l.mapM f <;> simp [List.mapM_cons, ha, hl]
      rw [htail, ih]
      simp [ha]

/-- A token has the indices `I` exactly when it is the symbols of `I`. -/
theorem Alphabet.mapM_rev_eq_some_iff (A : Alphabet) {T : List Symbol} {I : List Group} :
    T.mapM A.rev = some I ↔ T = I.map A.fwd := by
  rw [mapM_eq_some_iff_forall₂, ← List.forall₂_eq_eq_eq, List.forall₂_map_right_iff]
  simp only [A.rev_eq_some_iff, eq_comm]

theorem Alphabet.decode_map_fwd (A : Alphabet) (I : List Group) : A.decode (I.map A.fwd) = .ok (bytesOf I) := by
  rw [Alphabet.decode, A.mapM_rev_eq_some_iff.mpr rfl]

theorem Alphabet.decode_eq_symbolNotFound_iff (A : Alphabet) {T : List Symbol} :
    A.decode T = .symbolNotFound ↔ ∃ c ∈ T, c ∉ A.codes.toList := by
  simp only [← A.rev_eq_none_iff_notMem, ← mapM_eq_none_iff (f := A.rev)]
  rw [Alphabet.decode]
  cases T.mapM A.rev <;> simp

/-- Decoding succeeds exactly on the symbols of some indices, and gives their whole bytes. -/
theorem Alphabet.decode_eq_ok_iff (A : Alphabet) {T : List Symbol} {M : List Byte} :
    A.decode T = .ok M ↔ ∃ I : List Group, T = I.map A.fwd ∧ bytesOf I = M := by
  simp only [← A.mapM_rev_eq_some_iff]
  rw [Alphabet.decode]
  cases T.mapM A.rev <;> simp

/-- A token of the alphabet is the symbols of some indices. -/
theorem Alphabet.exists_indices (A : Alphabet) {T : List Symbol} (h : ∀ c ∈ T, c ∈ A.codes.toList) :
    ∃ I : List Group, T = I.map A.fwd := by
  cases hT : T.mapM A.rev with
  | some I => exact ⟨I, A.mapM_rev_eq_some_iff.mp hT⟩
  | none =>
    obtain ⟨c, hc, hforeign⟩ := mapM_eq_none_iff.mp hT
    exact absurd (h c hc) (A.rev_eq_none_iff_notMem.mp hforeign)

/-! ### The bits of groups and of decoded bytes (spec/40_codec_functions.md R93, R96) -/

/-- The bits of a message with their zero padding (R43, R93). -/
def paddedBits (M : List Byte) : List Bool :=
  bitsOf8 M ++ List.replicate (5 * tokenLength M.length - 8 * M.length) false

theorem length_bitsOf8 (M : List Byte) : (bitsOf8 M).length = 8 * M.length := length_flatMap_bitsMsb M

theorem length_bitsOf5 (I : List Group) : (bitsOf5 I).length = 5 * I.length := length_flatMap_bitsMsb I

theorem length_paddedBits (M : List Byte) : (paddedBits M).length = 5 * tokenLength M.length := by
  rw [paddedBits, List.length_append, length_bitsOf8, List.length_replicate]
  exact Nat.add_sub_cancel' (tokenLength_bounds _).1

theorem groupsOf_eq_cut (M : List Byte) : groupsOf M = cut 5 (tokenLength M.length) (paddedBits M) := rfl

theorem bytesOf_eq_cut (I : List Group) : bytesOf I = cut 8 (messageLength I.length) (bitsOf5 I) := rfl

@[simp] theorem length_groupsOf (M : List Byte) : (groupsOf M).length = tokenLength M.length := by
  rw [groupsOf_eq_cut, length_cut]

@[simp] theorem length_bytesOf (I : List Group) : (bytesOf I).length = messageLength I.length := by
  rw [bytesOf_eq_cut, length_cut]

/-- R93: the groups hold the message's bits and then the padding. -/
theorem bitsOf5_groupsOf (M : List Byte) : bitsOf5 (groupsOf M) = paddedBits M := by
  rw [bitsOf5, groupsOf_eq_cut, flatMap_bitsMsb_cut (length_paddedBits M).ge, ← length_paddedBits, List.take_length]

/-- R96: the bytes hold the first whole bytes of the indices' bits. -/
theorem bitsOf8_bytesOf (I : List Group) : bitsOf8 (bytesOf I) = (bitsOf5 I).take (8 * messageLength I.length) := by
  rw [bitsOf8, bytesOf_eq_cut, flatMap_bitsMsb_cut (by rw [length_bitsOf5]; exact messageLength_le _)]

theorem bitsOf5_inj {I J : List Group} : bitsOf5 I = bitsOf5 J ↔ I = J := (flatMap_bitsMsb_injective (by decide)).eq_iff

/-! ### Decoding an encoded message (spec/40_codec_functions.md R99) -/

/-- The whole bytes of a message's groups are the message: the padding is less than a byte and comes last. -/
theorem bytesOf_groupsOf (M : List Byte) : bytesOf (groupsOf M) = M := by
  rw [bytesOf_eq_cut, bitsOf5_groupsOf, length_groupsOf, messageLength_tokenLength, paddedBits,
    cut_append _ (length_bitsOf8 M).ge, bitsOf8, cut_flatMap_bitsMsb (by decide)]

/-- Settles O56: every look-up finds its group, and the groups hold the message. -/
theorem decodeUndoesEncode : Obligations.DecodeUndoesEncode := by
  intro A M
  rw [Alphabet.encode, A.decode_map_fwd, bytesOf_groupsOf]

/-- Settles O51: the message is found again by decoding. -/
theorem encodeIsInjective : Obligations.EncodeIsInjective := by
  intro A M M' h
  have hok := decodeUndoesEncode A M
  rw [h, decodeUndoesEncode A M'] at hok
  exact (Decoded.ok.inj hok).symm

/-! ### Encoding a decoded token (spec/40_codec_functions.md R100) -/

/-- The slack bits that lie inside the last symbol that encoding the decoded token gives. -/
def slackInside (I : List Group) : List Bool :=
  ((bitsOf5 I).take (5 * tokenLength (messageLength I.length))).drop (8 * messageLength I.length)

theorem length_slackBits (I : List Group) : (slackBits I).length = 5 * I.length - 8 * messageLength I.length := by
  rw [slackBits, List.length_drop, length_bitsOf5]

theorem take_append_slackBits (I : List Group) : (bitsOf5 I).take (8 * messageLength I.length) ++ slackBits I = bitsOf5 I :=
  List.take_append_drop _ _

theorem take_append_slackInside (I : List Group) :
    (bitsOf5 I).take (8 * messageLength I.length) ++ slackInside I =
      (bitsOf5 I).take (5 * tokenLength (messageLength I.length)) := by
  have hsplit := List.take_append_drop (8 * messageLength I.length) ((bitsOf5 I).take (5 * tokenLength (messageLength I.length)))
  rwa [List.take_take, Nat.min_eq_left (tokenLength_bounds _).1] at hsplit

theorem length_slackInside (I : List Group) :
    (slackInside I).length = 5 * tokenLength (messageLength I.length) - 8 * messageLength I.length := by
  have hle := tokenLength_messageLength_le I.length
  rw [slackInside, List.length_drop, List.length_take, length_bitsOf5, Nat.min_eq_left (by omega)]

/-- Encoding a decoded token keeps the bits of the whole bytes and puts zeros after them. -/
theorem bitsOf5_groupsOf_bytesOf (I : List Group) :
    bitsOf5 (groupsOf (bytesOf I)) = (bitsOf5 I).take (8 * messageLength I.length) ++
      List.replicate (5 * tokenLength (messageLength I.length) - 8 * messageLength I.length) false := by
  rw [bitsOf5_groupsOf, paddedBits, bitsOf8_bytesOf, length_bytesOf]

/-- R100: the indices come back exactly when the zeros replace slack bits that were zero, as many as there were. -/
theorem groupsOf_bytesOf_eq_self_iff (I : List Group) :
    groupsOf (bytesOf I) = I ↔ CanonicalLength I.length ∧ ∀ b ∈ slackBits I, b = false := by
  have hslack := messageLength_le I.length
  have hpad := (tokenLength_bounds (messageLength I.length)).1
  rw [← bitsOf5_inj, bitsOf5_groupsOf_bytesOf]
  conv_lhs => rhs; rw [← take_append_slackBits I]
  rw [List.append_cancel_left_eq, eq_comm, List.eq_replicate_iff, length_slackBits, ← tokenLength_messageLength_iff]
  exact and_congr_left' (by omega)

/-- R100: the first indices come back when the slack bits inside the last of them were zero. -/
theorem groupsOf_bytesOf_eq_take {I : List Group} (h : ∀ b ∈ slackInside I, b = false) :
    groupsOf (bytesOf I) = I.take (tokenLength (messageLength I.length)) := by
  have hzeros := List.eq_replicate_iff.mpr ⟨length_slackInside I, h⟩
  rw [← bitsOf5_inj, bitsOf5_groupsOf_bytesOf, ← hzeros, take_append_slackInside, bitsOf5, bitsOf5, take_flatMap_bitsMsb]

/-- R100: a slack bit inside the last symbol is lost, so that symbol differs. -/
theorem groupsOf_bytesOf_last_ne {I : List Group} (h : true ∈ slackInside I) :
    (groupsOf (bytesOf I))[tokenLength (messageLength I.length) - 1]? ≠ I[tokenLength (messageLength I.length) - 1]? := by
  intro heq
  obtain ⟨j, hj, hbit⟩ := List.mem_iff_getElem.mp h
  rw [length_slackInside] at hj
  obtain ⟨hpad, hlast⟩ := tokenLength_bounds (messageLength I.length)
  have hle := messageLength_le I.length
  have hgroup : (8 * messageLength I.length + j) / 5 = tokenLength (messageLength I.length) - 1 := by omega
  have htrue : (bitsOf5 I)[8 * messageLength I.length + j]? = some true := by
    rw [← hbit, ← List.getElem?_eq_getElem, slackInside, List.getElem?_drop, List.getElem?_take_of_lt (by omega)]
  have hfalse : (bitsOf5 (groupsOf (bytesOf I)))[8 * messageLength I.length + j]? = some false := by
    rw [bitsOf5_groupsOf_bytesOf, List.getElem?_append_right (by simp), List.length_take, length_bitsOf5,
      Nat.min_eq_left hle, Nat.add_sub_cancel_left, List.getElem?_replicate_of_lt hj]
  rw [bitsOf5, getElem?_flatMap_bitsMsb (by decide), hgroup] at htrue hfalse
  rw [heq, htrue] at hfalse
  cases hfalse

/-- Settles O57: token and result are compared index by index, as the alphabet's symbols are distinct. -/
theorem encodeUndoesDecodeOnCanonicalTokens : Obligations.EncodeUndoesDecodeOnCanonicalTokens := by
  intro A T I M hI hM
  obtain rfl := A.mapM_rev_eq_some_iff.mp hI
  rw [A.decode_map_fwd] at hM
  obtain rfl := Decoded.ok.inj hM
  have hlen : (A.encode (bytesOf I)).length = tokenLength (messageLength I.length) := by simp [Alphabet.encode]
  simp only [hlen, List.length_map, length_bytesOf]
  refine ⟨?_, tokenLength_messageLength_iff.mpr, fun hnot => ?_, fun hzero => ?_, fun hone heq => ?_⟩
  · rw [Alphabet.encode, (List.map_injective_iff.mpr A.fwd_injective).eq_iff, groupsOf_bytesOf_eq_self_iff]
  · rw [tokenLength_messageLength_of_not hnot]
    simp only [CanonicalLength] at hnot
    omega
  · rw [Alphabet.encode, groupsOf_bytesOf_eq_take hzero, List.map_take]
  · rw [List.getLast?_eq_getElem?, hlen, Alphabet.encode, List.getElem?_map, List.getElem?_map] at heq
    exact groupsOf_bytesOf_last_ne hone (Option.map_injective A.fwd_injective heq)

/-! ### Encode and decode in integer form (spec/40_codec_functions.md R94, R97) -/

/-- Settles O48: the padding multiplies the message's number, and each group is a digit in base 32. -/
theorem encodeInIntegerForm : Obligations.EncodeInIntegerForm := by
  intro A M L n pad C
  have hC : natOfBits (paddedBits M) = C := by
    rw [paddedBits, natOfBits_append, natOfBits_replicate_false, List.length_replicate, bitsOf8, natOfBits_flatMap_bitsMsb]
    rfl
  rw [Alphabet.encode, groupsOf_eq_cut, cut, List.map_map]
  refine List.map_congr_left fun j hj => ?_
  rw [List.mem_range] at hj
  have hexp : (paddedBits M).length - 5 * (j + 1) = 5 * (n - 1 - j) := by
    rw [length_paddedBits, show tokenLength M.length = n from rfl]
    omega
  rw [Function.comp_apply, fieldAt_eq_ofNat_div_mod (by rw [length_paddedBits]; omega), hC, hexp, Nat.pow_mul]
  rfl

/-- Settles O49: each byte is read off the indices' number, above the slack. -/
theorem decodeInIntegerForm : Obligations.DecodeInIntegerForm := by
  intro A T I hI n m slack D
  obtain rfl := A.mapM_rev_eq_some_iff.mp hI
  have hn : n = I.length := List.length_map _
  have hD : natOfBits (bitsOf5 I) = D := by
    simp only [bitsOf5, natOfBits_flatMap_bitsMsb, D, hn]
    rfl
  have hm : messageLength I.length = m := by rw [← hn]; rfl
  rw [A.decode_map_fwd, bytesOf_eq_cut, cut, hm]
  refine congrArg _ (List.map_congr_left fun i hi => ?_)
  rw [List.mem_range] at hi
  have hle := messageLength_le I.length
  have hexp : (bitsOf5 I).length - 8 * (i + 1) = slack + 8 * (m - 1 - i) := by rw [length_bitsOf5]; omega
  rw [fieldAt_eq_ofNat_div_mod (by rw [length_bitsOf5]; omega), hD, hexp]
  rfl

/-! ### Properties of encode and of decode (spec/40_codec_functions.md R95, R96) -/

/-- R95 (c): the number of the groups ends in the padding's zeros, and the last group is its last five bits. -/
theorem padding_dvd_last_group {M : List Byte} {g : Group} (hg : (groupsOf M).getLast? = some g) :
    2 ^ (5 * tokenLength M.length - 8 * M.length) ∣ g.toNat := by
  obtain ⟨init, hinit⟩ := List.getLast?_eq_some_iff.mp hg
  have hvalue : natOfBits (bitsOf8 M) * 2 ^ (5 * tokenLength M.length - 8 * M.length) =
      natOfBits (bitsOf5 init) * 2 ^ 5 + g.toNat := calc
    _ = natOfBits (paddedBits M) := by
      rw [paddedBits, natOfBits_append, natOfBits_replicate_false, List.length_replicate, Nat.add_zero]
    _ = natOfBits (bitsOf5 init ++ bitsMsb g) := by
      rw [← bitsOf5_groupsOf, hinit, bitsOf5, bitsOf5, List.flatMap_append, List.flatMap_singleton]
    _ = _ := by rw [natOfBits_append, natOfBits_bitsMsb, length_bitsMsb]
  have hpad : 2 ^ (5 * tokenLength M.length - 8 * M.length) ∣ 2 ^ 5 := by
    have hbound := (tokenLength_bounds M.length).2
    exact Nat.pow_dvd_pow 2 (by omega)
  exact (Nat.dvd_add_right (hpad.mul_left _)).mp (hvalue ▸ Nat.dvd_mul_left _ _)

/-- Settles O50: the token is the alphabet's symbols of the groups, and the last group ends in the padding. -/
theorem encodedTokenShape : Obligations.EncodedTokenShape := by
  refine fun A M => ⟨?_, fun c hc => ?_, fun g hg => Nat.mod_eq_zero_of_dvd (padding_dvd_last_group hg)⟩
  · rw [Alphabet.encode, List.length_map, length_groupsOf, tokenLength]
  · obtain ⟨i, -, rfl⟩ := List.mem_map.mp hc
    exact A.fwd_mem_codes i

/-- R95 (e): with no padding after the first message, the bits of the two are the bits of the concatenation. -/
theorem groupsOf_append {M M' : List Byte} (h : M.length % 5 = 0) : groupsOf (M ++ M') = groupsOf M ++ groupsOf M' := by
  have hnone : 5 * tokenLength M.length - 8 * M.length = 0 := by simp only [tokenLength]; omega
  have hsame : 5 * tokenLength (M.length + M'.length) - 8 * (M.length + M'.length) =
      5 * tokenLength M'.length - 8 * M'.length := by simp only [tokenLength]; omega
  have happend : bitsOf5 (groupsOf M ++ groupsOf M') = bitsOf5 (groupsOf M) ++ bitsOf5 (groupsOf M') := List.flatMap_append
  have hbits : bitsOf8 (M ++ M') = bitsOf8 M ++ bitsOf8 M' := List.flatMap_append
  rw [← bitsOf5_inj, happend]
  simp only [bitsOf5_groupsOf, paddedBits, hbits, List.length_append, hnone, hsame, List.replicate_zero, List.append_nil,
    List.append_assoc]

/-- Settles O52: the groups split, and each is mapped by itself. -/
theorem encodeSplitsAtFiveByteBoundaries : Obligations.EncodeSplitsAtFiveByteBoundaries := by
  intro A M M' h
  simp only [Alphabet.encode, groupsOf_append h, List.map_append]

/-- Settles O53: a symbol's index under the first alphabet is the group it stands for. -/
theorem changingTheAlphabetRelabels : Obligations.ChangingTheAlphabetRelabels := by
  intro A A' M
  rw [mapM_eq_some_iff_forall₂, Alphabet.encode, Alphabet.encode, List.forall₂_map_left_iff, List.forall₂_map_right_iff,
    List.forall₂_same]
  intro g _
  rw [A.rev_fwd, Option.map_some]

/-- R45: a last symbol that lies wholly in the slack does not change the bytes. -/
theorem bytesOf_dropLast {I : List Group} (h : messageLength (I.length - 1) = messageLength I.length) :
    bytesOf I.dropLast = bytesOf I := by
  have hle := messageLength_le (I.length - 1)
  have hbits : bitsOf5 I.dropLast = (bitsOf5 I).take (5 * (I.length - 1)) := by
    rw [List.dropLast_eq_take, bitsOf5, take_flatMap_bitsMsb, bitsOf5]
  have hlen : ((bitsOf5 I).take (5 * (I.length - 1))).length = 5 * (I.length - 1) := by
    rw [← hbits, length_bitsOf5, List.length_dropLast]
  rw [bytesOf_eq_cut, bytesOf_eq_cut, List.length_dropLast, hbits, ← h, ← cut_append ((bitsOf5 I).drop _) (by rw [hlen]; exact hle),
    List.take_append_drop]

/-- Settles O54: a token without a foreign symbol is the symbols of its indices, whose whole bytes do not depend on the slack. -/
theorem decodeAcceptsEveryTokenOfTheAlphabet : Obligations.DecodeAcceptsEveryTokenOfTheAlphabet := by
  refine fun A T => ⟨A.decode_eq_symbolNotFound_iff, fun M hM => ?_, fun I hI => ?_, fun hlen hT => ?_⟩
  · obtain ⟨I, rfl, rfl⟩ := A.decode_eq_ok_iff.mp hM
    rw [length_bytesOf, List.length_map, messageLength]
  · obtain rfl := A.mapM_rev_eq_some_iff.mp hI
    rw [length_slackBits, List.length_map, messageLength]
    omega
  · obtain ⟨I, rfl⟩ := A.exists_indices hT
    rw [List.length_map] at hlen
    have hsame : messageLength (I.length - 1) = messageLength I.length := by simp only [messageLength]; omega
    rw [← List.map_dropLast, A.decode_map_fwd, A.decode_map_fwd, bytesOf_dropLast hsame]

end Sys2Proof.Machine

namespace Sys2Proof.Machine

/-! ### The configuration commands (spec/41_config_commands.md R110, R111, R112) -/

theorem defaultAlphabet_distinct : PairwiseDistinct Config.defaultAlphabet :=
  (pairwiseDistinct_iff_nodup _).mpr (by decide)

/-- Settles O26: the check computes R111's two conditions, and the default alphabet has no entry twice. -/
theorem validAlphabetMeansCountAndDistinct : Obligations.ValidAlphabetMeansCountAndDistinct :=
  ⟨fun _ _ => validAlphabet_iff, validAlphabet_iff.mpr ⟨.inl rfl, defaultAlphabet_distinct⟩⟩

theorem State.offerSymbol_of_lt (s : State) (c : Symbol) (hlt : s.cfgcnt.toNat < 32) :
    s.offerSymbol c = { s with alpha := s.alpha.set s.cfgcnt.toNat c hlt } := by
  rw [State.offerSymbol, dif_pos hlt, State.writeFwd]

theorem State.offerSymbol_of_le (s : State) (c : Symbol) (hle : 32 ≤ s.cfgcnt.toNat) : s.offerSymbol c = s := by
  rw [State.offerSymbol, dif_neg (by omega)]

/-- Settles O25: below 33 the command counts, and below 32 it also writes the entry that the count names. -/
theorem cfgSymStoresTheNextSymbol : Obligations.CfgSymStoresTheNextSymbol := by
  refine fun c s =>
    ⟨fun hm => exec_of_not_legal (beq_false_of_ne hm), fun hm => ⟨fun hlt => ?_, fun h32 => ?_, fun h33 => ?_⟩⟩
  · rw [exec_cfgSym_of_lt hm (by omega), s.offerSymbol_of_lt c hlt]
  · rw [exec_cfgSym_of_lt hm (by simp [h32]), s.offerSymbol_of_le c (by simp [h32]), h32]
    rfl
  · exact exec_cfgSym_of_saturated hm (by simp [h33])

theorem getElem_reverseTable_of_found {alpha : Vector Symbol 32} (hd : PairwiseDistinct alpha) {c i : Nat} (hc : c < 256)
    (hi : i < 32) (hfound : alpha[i].toNat = c) : (reverseTable alpha)[c] = ⟨true, BitVec.ofNat 5 i⟩ := by
  subst hfound
  have hindex : indexOf alpha alpha[i] = some (BitVec.ofNat 5 i) :=
    (indexOf_eq_some_iff hd).mpr (by simp only [BitVec.toNat_ofNat, Nat.mod_eq_of_lt hi])
  rw [getElem_reverseTable, hindex]

theorem getElem_reverseTable_of_foreign {alpha : Vector Symbol 32} {c : Nat} (hc : c < 256)
    (hforeign : ∀ (i : Nat) (hi : i < 32), alpha[i].toNat ≠ c) : (reverseTable alpha)[c] = ⟨false, 0⟩ := by
  have hindex : indexOf alpha (BitVec.ofNatLT c hc) = none :=
    indexOf_eq_none.mpr fun i hi => hforeign i.toNat i.isLt (by rw [hi, BitVec.toNat_ofNatLT])
  have hentry := getElem_reverseTable alpha (BitVec.ofNatLT c hc)
  simpa only [BitVec.toNat_ofNatLT, hindex] using hentry

/-- Settles O27: the two outcomes of the validity check, the table on the valid one being `reverseTable`. -/
theorem cfgCommitValidatesBuildsAndLocks : Obligations.CfgCommitValidatesBuildsAndLocks := by
  intro s
  rw [← validAlphabet_iff, Bool.not_eq_true]
  refine ⟨fun hm => exec_of_not_legal (beq_false_of_ne hm), fun hm hk => ⟨fun hv => ?_, exec_cfgCommit_of_invalid hm hk⟩⟩
  have hd : PairwiseDistinct s.alpha := (validAlphabet_iff.mp hv).right
  refine ⟨reverseTable s.alpha, ?_, fun c hc i hi => getElem_reverseTable_of_found hd hc hi,
    fun c hc => getElem_reverseTable_of_foreign hc⟩
  rw [exec_cfgCommit_of_valid hm hk hv, State.writeRevAll_eq]
  rfl

end Sys2Proof.Machine

namespace Sys2Proof.Machine

/-! ### The mode (spec/10_state.md R20, 41_config_commands.md R114) -/

theorem decodeWord_cfgCommit_iff {w : CmdWord} : decodeWord w = some .cfgCommit ↔ w = 0x200 :=
  (everyCommandHasExactlyOneWord w .cfgCommit).trans eq_comm

/-- R33: `MODE` is in the write column of `CFG.COMMIT` alone. -/
theorem exec_mode_of_ne_cfgCommit {i : Instr} {s t : State} (hi : i ≠ .cfgCommit) (hx : exec i s = .next t) :
    t.mode = s.mode := by
  obtain ⟨-, hwrite⟩ := commandsWriteOnlyTheirElements i s t hx
  cases i with
  | cfgSym c => rw [hwrite.left]
  | cfgCommit => exact absurd rfl hi
  | encPut b => rw [hwrite]
  | encEnd => rw [hwrite]
  | decPut c => rw [hwrite]
  | decEnd => rw [hwrite]

theorem exec_cfgCommit_mode {s t : State} (hx : exec .cfgCommit s = .next t) :
    t.mode = if s.mode = .config then (if validAlphabet s.cfgcnt s.alpha then .ready else .failed) else s.mode := by
  obtain ⟨hm, rfl⟩ | ⟨hm, -, hv, rfl⟩ | ⟨hm, -, hv, rfl⟩ := execCfgCommit_next hx
  · rw [if_neg hm, State.emits_mode]
  · rw [if_pos hm, if_pos hv, State.emits_mode]
  · rw [if_pos hm, hv, State.emits_mode]
    rfl

/-- Settles O23, by the cases of a step: of the command words, only that of `CFG.COMMIT` can change the mode. -/
theorem modeTransitions : Obligations.ModeTransitions := by
  intro s t hstep
  obtain ⟨hinp, rfl⟩ | ⟨rest, hinp, rfl⟩ | ⟨w, rest, hinp, hdec, rfl⟩ | ⟨w, rest, i, hinp, hdec, hx⟩ :=
    step_next hstep <;> simp only [hinp]
  · rfl
  · have hw : w ≠ 0x200 := fun hw => by simp [decodeWord_cfgCommit_iff.mpr hw] at hdec
    rw [if_neg fun h => hw h.right, State.emits_mode]
  · by_cases hi : i = .cfgCommit
    · subst hi
      rw [exec_cfgCommit_mode hx]
      simp only [decodeWord_cfgCommit_iff.mp hdec, and_true]
    · have hw : w ≠ 0x200 := fun hw => hi (by simpa [decodeWord_cfgCommit_iff.mpr hw] using hdec.symm)
      rw [if_neg fun h => hw h.right, exec_mode_of_ne_cfgCommit hi hx]

/-- R147: no command word leads out of `FAILED`. -/
theorem step_keeps_failed {s t : State} {w : CmdWord} {rest : List Input} (hm : s.mode = .failed)
    (hinp : s.inp = .cmd w :: rest) (hstep : step s = .next t) : t.mode = .failed := by
  have hmode := modeTransitions s t hstep
  simpa [hinp, hm] using hmode

end Sys2Proof.Machine

namespace Sys2Proof.Machine

/-! ### Commands and runs complete under the invariants (spec/70_reset_and_hazards.md R190) -/

/-- The register values that a command would be refused for are those that the invariants exclude. -/
theorem exec_completes {s : State} (h : s.Inv) (i : Instr) : ∃ t, exec i s = .next t := by
  cases hl : legalIn i s.mode with
  | false => exact ⟨_, exec_of_not_legal hl⟩
  | true =>
    cases i with
    | cfgSym c =>
      have hm : s.mode = .config := eq_of_beq hl
      obtain hlt | heq := Nat.lt_or_eq_of_le h.cfgcnt_legal
      · exact ⟨_, exec_cfgSym_of_lt hm hlt⟩
      · exact ⟨_, exec_cfgSym_of_saturated hm heq⟩
    | cfgCommit =>
      have hm : s.mode = .config := eq_of_beq hl
      cases hv : validAlphabet s.cfgcnt s.alpha with
      | true => exact ⟨_, exec_cfgCommit_of_valid hm h.cfgcnt_legal hv⟩
      | false => exact ⟨_, exec_cfgCommit_of_invalid hm h.cfgcnt_legal hv⟩
    | encPut b => exact ⟨_, exec_encPut_of_legal (eq_of_beq hl) h.encoder_legal⟩
    | encEnd => exact ⟨_, exec_encEnd_of_legal (eq_of_beq hl) h.encoder_legal⟩
    | decPut c =>
      have hm : s.mode = .ready := eq_of_beq hl
      cases hd : s.derr with
      | true => exact ⟨_, exec_decPut_of_derr hm hd⟩
      | false =>
        cases hc : s.lookupRev c with
        | none => exact ⟨_, exec_decPut_of_foreign hm hd hc⟩
        | some i => exact ⟨_, exec_decPut_of_found hm hd hc h.decoder_legal⟩
    | decEnd => exact ⟨_, exec_decEnd_of_ready (eq_of_beq hl)⟩

theorem step_completes {s : State} (h : s.Inv) : ∃ t, step s = .next t := by
  cases hinp : s.inp with
  | nil => exact ⟨_, step_of_idle hinp⟩
  | cons e rest =>
    cases e with
    | reset => exact ⟨_, step_of_reset hinp⟩
    | cmd w =>
      cases hdec : decodeWord w with
      | none => exact ⟨_, step_of_reserved hinp hdec⟩
      | some i =>
        rw [stepRunsTheDecodedCommand s w rest i hinp hdec]
        exact exec_completes (h.with_ports rest s.rsp) i

theorem run_completes {s : State} (h : s.Inv) (n : Nat) : ∃ t, run n s = .next t := by
  induction n generalizing s with
  | zero => exact ⟨s, run_zero s⟩
  | succ n ih =>
    obtain ⟨u, hu⟩ := step_completes h
    obtain ⟨t, ht⟩ := ih (step_keeps_inv h hu)
    exact ⟨t, run_succ.mpr ⟨u, hu, ht⟩⟩

theorem send_completes {s : State} (h : s.Inv) (ws : List CmdWord) : ∃ t, send ws s = .next t :=
  run_completes (h.with_ports _ s.rsp) ws.length

end Sys2Proof.Machine

namespace Sys2Proof.Machine

/-! ### A command stream before its first `CFG.COMMIT` (spec/41_config_commands.md R113) -/

theorem offeredSymbols_cons (w : CmdWord) (ws : List CmdWord) :
    offeredSymbols (w :: ws) = offeredSymbols [w] ++ offeredSymbols ws :=
  List.filterMap_append (l := [w])

theorem offeredSymbols_of_cfgSym {w : CmdWord} {c : Symbol} (hdec : decodeWord w = some (.cfgSym c)) :
    offeredSymbols [w] = [c] := by
  simp [offeredSymbols, hdec]

theorem offeredSymbols_of_other {w : CmdWord} (hdec : ∀ c, decodeWord w ≠ some (.cfgSym c)) : offeredSymbols [w] = [] := by
  cases hi : decodeWord w with
  | none => simp [offeredSymbols, hi]
  | some i =>
    cases i with
    | cfgSym c => exact absurd hi (hdec c)
    | cfgCommit => simp [offeredSymbols, hi]
    | encPut b => simp [offeredSymbols, hi]
    | encEnd => simp [offeredSymbols, hi]
    | decPut c => simp [offeredSymbols, hi]
    | decEnd => simp [offeredSymbols, hi]

/-- The block in `CONFIG` after a stream from reset that offered the symbols `cs`: it has counted them up to 33, holds them over
the default ones, and has answered nothing but `FAULT`. -/
structure State.Offered (s : State) (cs : List Symbol) : Prop where
  mode : s.mode = .config
  faults : ∀ r ∈ s.rsp, r = 0xF03
  cfgcnt : s.cfgcnt.toNat = min cs.length 33
  alpha : ∀ (k : Nat) (hk : k < 32), s.alpha[k] = cs[k]?.getD Config.defaultAlphabet[k]

theorem State.reset_offered (inp : List Input) : ({ State.reset with inp := inp } : State).Offered [] where
  mode := rfl
  faults := nofun
  cfgcnt := rfl
  alpha _ _ := rfl

namespace State.Offered

variable {s t : State} {cs : List Symbol}

theorem with_inp (h : s.Offered cs) (inp : List Input) : ({ s with inp := inp } : State).Offered cs :=
  ⟨h.mode, h.faults, h.cfgcnt, h.alpha⟩

theorem emits_fault (h : s.Offered cs) : (s.emits [.fault .illegalCommand]).Offered cs := by
  refine ⟨h.mode, ?_, h.cfgcnt, h.alpha⟩
  simp only [State.emits_rsp, List.forall_mem_append, List.map_cons, List.map_nil, List.forall_mem_singleton]
  exact ⟨h.faults, word_fault⟩

/-- A further symbol can show at no entry but the one behind those already offered. -/
theorem alpha_concat_of_ne (h : s.Offered cs) (c : Symbol) {k : Nat} (hk : k < 32) (hne : k ≠ cs.length) :
    s.alpha[k] = (cs ++ [c])[k]?.getD Config.defaultAlphabet[k] := by
  rw [h.alpha k hk]
  obtain hlt | hgt := Nat.lt_or_gt_of_ne hne
  · rw [List.getElem?_append_left hlt]
  · rw [List.getElem?_eq_none hgt.le, List.getElem?_eq_none (by simpa using hgt)]

theorem offerSymbol (h : s.Offered cs) (hk : s.cfgcnt.toNat < 33) (c : Symbol) :
    ({ s.offerSymbol c with cfgcnt := s.cfgcnt + 1 } : State).Offered (cs ++ [c]) := by
  have hcnt := h.cfgcnt
  rw [State.offerSymbol_eq]
  refine ⟨h.mode, h.faults, ?_, fun k hk32 => ?_⟩
  · have hsucc : (s.cfgcnt + 1).toNat = s.cfgcnt.toNat + 1 := by bv_omega
    show (s.cfgcnt + 1).toNat = _
    rw [hsucc, List.length_append, List.length_singleton]
    omega
  · show (s.offerSymbol c).alpha[k] = _
    by_cases hlen : k = cs.length
    · obtain rfl : s.cfgcnt.toNat = k := by omega
      simp only [s.offerSymbol_of_lt c hk32, Vector.getElem_set_self, hlen, List.getElem?_concat_length, Option.getD_some]
    · rw [s.offerSymbol_alpha_of_ne c hk32 (by omega)]
      exact h.alpha_concat_of_ne c hk32 hlen

/-- At a count of 33 a further symbol is dropped, and none of the first 32 is displaced. -/
theorem concat_of_saturated (h : s.Offered cs) (hk : s.cfgcnt.toNat = 33) (c : Symbol) : s.Offered (cs ++ [c]) := by
  have hcnt := h.cfgcnt
  refine ⟨h.mode, h.faults, ?_, fun k hk32 => h.alpha_concat_of_ne c hk32 (by omega)⟩
  rw [List.length_append, List.length_singleton]
  omega

theorem exec_cfgSym (h : s.Offered cs) {c : Symbol} (hx : exec (.cfgSym c) s = .next t) : t.Offered (cs ++ [c]) := by
  obtain ⟨hne, -⟩ | ⟨-, hk, rfl⟩ | ⟨-, hk, rfl⟩ := execCfgSym_next hx
  · exact absurd h.mode hne
  · exact h.offerSymbol hk c
  · exact h.concat_of_saturated hk c

/-- The data commands are refused in `CONFIG`. -/
theorem exec_other (h : s.Offered cs) {i : Instr} (hsym : ∀ c, i ≠ .cfgSym c) (hcommit : i ≠ .cfgCommit)
    (hx : exec i s = .next t) : t.Offered cs := by
  have hl : legalIn i s.mode = false := by
    rw [← Bool.not_eq_true, legalIn_iff, h.mode]
    simp [hsym, hcommit]
  obtain rfl : s.emits [.fault .illegalCommand] = t := by simpa [exec_of_not_legal hl] using hx
  exact h.emits_fault

/-- One word before the first `CFG.COMMIT`: a reserved word, a `CFG.SYM`, or a data command. -/
theorem after_step (h : s.Offered cs) {w : CmdWord} {rest : List Input} (hinp : s.inp = .cmd w :: rest)
    (hw : decodeWord w ≠ some .cfgCommit) (hstep : step s = .next t) : t.Offered (cs ++ offeredSymbols [w]) := by
  cases hdec : decodeWord w with
  | none =>
    obtain rfl : ({ s with inp := rest } : State).emits [.fault .illegalCommand] = t := by
      simpa [step_of_reserved hinp hdec] using hstep
    rw [offeredSymbols_of_other (by simp [hdec]), List.append_nil]
    exact (h.with_inp rest).emits_fault
  | some i =>
    rw [stepRunsTheDecodedCommand s w rest i hinp hdec] at hstep
    by_cases hsym : ∃ c, i = .cfgSym c
    · obtain ⟨c, rfl⟩ := hsym
      rw [offeredSymbols_of_cfgSym hdec]
      exact (h.with_inp rest).exec_cfgSym hstep
    · have hother : ∀ c, i ≠ .cfgSym c := not_exists.mp hsym
      rw [offeredSymbols_of_other (by simpa [hdec] using hother), List.append_nil]
      exact (h.with_inp rest).exec_other hother (by simpa [hdec] using hw) hstep

theorem after_run {ws : List CmdWord} {rest : List Input} (h : s.Offered cs) (hinp : s.inp = ws.map .cmd ++ rest)
    (hws : ∀ w ∈ ws, decodeWord w ≠ some .cfgCommit) (hrun : run ws.length s = .next t) :
    t.Offered (cs ++ offeredSymbols ws) := by
  induction ws generalizing s cs with
  | nil =>
    obtain rfl : s = t := by simpa [run_zero] using hrun
    simpa [offeredSymbols] using h
  | cons w ws ih =>
    obtain ⟨hw, hws⟩ := List.forall_mem_cons.mp hws
    obtain ⟨u, hu, hrest⟩ := run_succ.mp hrun
    rw [offeredSymbols_cons, ← List.append_assoc]
    exact ih (h.after_step hinp hw hu) (by rw [step_inp hu, hinp]; rfl) hws hrest

theorem alpha_of_nil (h : s.Offered []) : s.alpha = Config.defaultAlphabet := Vector.ext h.alpha

theorem alpha_of_length (h : s.Offered cs) (hlen : cs.length = 32) : s.alpha.toList = cs := by
  refine List.ext_getElem (by simp [hlen]) fun k hk hkcs => ?_
  rw [Vector.getElem_toList, h.alpha k (by omega), List.getElem?_eq_getElem hkcs, Option.getD_some]

/-- R113: the offers that `CFG.COMMIT` accepts. -/
theorem accepted_iff (h : s.Offered cs) :
    validAlphabet s.cfgcnt s.alpha = true ↔ cs = [] ∨ cs.length = 32 ∧ cs.Nodup := by
  have hcnt := h.cfgcnt
  have hzero : s.cfgcnt = 0 ↔ cs = [] := by
    rw [← BitVec.toNat_inj, ← List.length_eq_zero_iff, show (0 : BitVec 6).toNat = 0 from rfl]
    omega
  have hfull : s.cfgcnt = 32 ↔ cs.length = 32 := by
    rw [← BitVec.toNat_inj, show (32 : BitVec 6).toNat = 32 from rfl]
    omega
  rw [validAlphabet_iff, hzero, hfull, or_and_right]
  refine or_congr (and_iff_left_of_imp ?_) (and_congr_right fun hlen => ?_)
  · rintro rfl
    rw [h.alpha_of_nil]
    exact defaultAlphabet_distinct
  · rw [pairwiseDistinct_iff_nodup, h.alpha_of_length hlen]

end State.Offered

end Sys2Proof.Machine

namespace Sys2Proof.Machine

/-! ### From the first `CFG.COMMIT` on (spec/41_config_commands.md R113) -/

/-- A `CFG.COMMIT` that is accepted fixes the alphabet for every later word (R51). -/
theorem send_cfgCommit_of_valid {s u : State} {later : List CmdWord} (hm : s.mode = .config)
    (hv : validAlphabet s.cfgcnt s.alpha = true) (hsend : send (0x200 :: later) s = .next u) :
    u.mode = .ready ∧ u.alpha = s.alpha := by
  obtain ⟨v, hstep, hrun⟩ := run_succ.mp hsend
  have hmode : v.mode = .ready := by simpa [hm, hv] using modeTransitions _ _ hstep
  have halpha : v.alpha = s.alpha := by
    rw [stepRunsTheDecodedCommand _ 0x200 _ _ rfl (decodeWord_cfgCommit_iff.mpr rfl)] at hstep
    rw [(commandsWriteOnlyTheirElements _ _ _ hstep).right]
    rfl
  have hfrozen : u.FrozenAs v := run_words_keeps step_keeps_frozen ⟨hmode, rfl, rfl, rfl⟩ (step_inp hstep) hrun
  exact ⟨hfrozen.mode, hfrozen.alpha.trans halpha⟩

/-- A `CFG.COMMIT` that is not accepted fails the block for every later word (R147). -/
theorem send_cfgCommit_of_invalid {s u : State} {later : List CmdWord} (hm : s.mode = .config)
    (hv : validAlphabet s.cfgcnt s.alpha = false) (hsend : send (0x200 :: later) s = .next u) : u.mode = .failed := by
  obtain ⟨v, hstep, hrun⟩ := run_succ.mp hsend
  have hmode : v.mode = .failed := by simpa [hm, hv] using modeTransitions _ _ hstep
  exact run_words_keeps (P := fun x => x.mode = .failed) step_keeps_failed hmode (step_inp hstep) hrun

/-- Settles O28: before the commit the block is as `State.Offered` says of the symbols offered, which decide the validity check;
the commit and all later words complete because the invariants hold. -/
theorem configurationSequence : Obligations.ConfigurationSequence := by
  intro ws hws
  obtain ⟨t, ht⟩ := send_completes State.reset_inv ws
  have h : t.Offered (offeredSymbols ws) := (State.reset_offered _).after_run rfl hws ht
  have hinv : t.Inv := reachable_inv ht
  refine ⟨t, ht, h.mode, h.faults, h.cfgcnt, h.alpha, fun later => ?_⟩
  obtain ⟨u, hu⟩ := send_completes hinv (0x200 :: later)
  refine ⟨u, hu, fun hnil => ?_, fun hlen hnodup => ?_, fun hnot => ?_⟩
  · obtain ⟨hmode, halpha⟩ := send_cfgCommit_of_valid h.mode (h.accepted_iff.mpr (.inl hnil)) hu
    rw [hnil] at h
    exact ⟨hmode, halpha.trans h.alpha_of_nil⟩
  · obtain ⟨hmode, halpha⟩ := send_cfgCommit_of_valid h.mode (h.accepted_iff.mpr (.inr ⟨hlen, hnodup⟩)) hu
    exact ⟨hmode, by rw [halpha, h.alpha_of_length hlen]⟩
  · rw [← h.accepted_iff, Bool.not_eq_true] at hnot
    exact send_cfgCommit_of_invalid h.mode hnot hu

end Sys2Proof.Machine

namespace Sys2Proof.Machine

/-! ### A stream of command words, word by word (spec/20_memory.md R48, 30_encoding.md R60) -/

/-- What the block does with one command word it has taken off the port. -/
def execWord (w : CmdWord) (s : State) : Host.Outcome State Fault Refusal :=
  match decodeWord w with
  | some i => exec i s
  | none => .next (s.emits [.fault .illegalCommand])

theorem execWord_of_command {w : CmdWord} {i : Instr} (hdec : decodeWord w = some i) (s : State) : execWord w s = exec i s := by
  simp only [execWord, hdec]

theorem execWord_of_reserved {w : CmdWord} (hdec : decodeWord w = none) (s : State) :
    execWord w s = .next (s.emits [.fault .illegalCommand]) := by
  simp only [execWord, hdec]

theorem execWord_encode (i : Instr) (s : State) : execWord (encode i) s = exec i s :=
  execWord_of_command (decodeWord_encode i) s

theorem step_eq_execWord {s : State} {w : CmdWord} {rest : List Input} (hinp : s.inp = .cmd w :: rest) :
    step s = execWord w { s with inp := rest } := by
  cases hdec : decodeWord w with
  | some i => rw [stepRunsTheDecodedCommand s w rest i hinp hdec, execWord_of_command hdec]
  | none => rw [step_of_reserved hinp hdec, execWord_of_reserved hdec]

/-- No command reads the pending port events. -/
theorem exec_with_inp {i : Instr} {s t : State} (inp : List Input) (hx : exec i s = .next t) :
    exec i { s with inp := inp } = .next { t with inp := inp } := by
  cases i with
  | cfgSym c =>
    obtain ⟨hm, rfl⟩ | ⟨hm, hk, rfl⟩ | ⟨hm, hk, rfl⟩ := execCfgSym_next hx
    · exact exec_of_not_legal (beq_false_of_ne hm)
    · rw [exec_cfgSym_of_lt (s := { s with inp := inp }) hm hk, State.offerSymbol, State.offerSymbol]
      split <;> rfl
    · exact exec_cfgSym_of_saturated hm hk
  | cfgCommit =>
    obtain ⟨hm, rfl⟩ | ⟨hm, hk, hv, rfl⟩ | ⟨hm, hk, hv, rfl⟩ := execCfgCommit_next hx
    · exact exec_of_not_legal (beq_false_of_ne hm)
    · rw [exec_cfgCommit_of_valid (s := { s with inp := inp }) hm hk hv, State.writeRevAll_eq, State.writeRevAll_eq]
      rfl
    · exact exec_cfgCommit_of_invalid hm hk hv
  | encPut _ | encEnd =>
    obtain ⟨l, hrsp, hx'⟩ := encoderReadsOnlyItsElements _ s t { s with inp := inp } rfl hx rfl rfl rfl rfl
    rw [hx', (commandsWriteOnlyTheirElements _ _ _ hx).right, hrsp]
  | decPut _ | decEnd =>
    obtain ⟨l, hrsp, hx'⟩ := decoderReadsOnlyItsElements _ s t { s with inp := inp } rfl hx rfl rfl rfl rfl rfl
    rw [hx', (commandsWriteOnlyTheirElements _ _ _ hx).right, hrsp]

theorem execWord_with_inp {w : CmdWord} {s t : State} (inp : List Input) (hx : execWord w s = .next t) :
    execWord w { s with inp := inp } = .next { t with inp := inp } := by
  cases hdec : decodeWord w with
  | some i =>
    rw [execWord_of_command hdec] at hx ⊢
    exact exec_with_inp inp hx
  | none =>
    obtain rfl : s.emits [.fault .illegalCommand] = t := by simpa [execWord_of_reserved hdec] using hx
    exact execWord_of_reserved hdec _

theorem execWord_inp {w : CmdWord} {s t : State} (hx : execWord w s = .next t) : t.inp = s.inp := by
  cases hdec : decodeWord w with
  | some i => exact exec_inp (by rwa [execWord_of_command hdec] at hx)
  | none =>
    obtain rfl : s.emits [.fault .illegalCommand] = t := by simpa [execWord_of_reserved hdec] using hx
    rfl

/-- Words still pending behind a word do not change what it does. -/
theorem execWord_push_iff {w : CmdWord} {s v : State} {es : List Input} :
    execWord w (s.push es) = .next v ↔ ∃ t, execWord w s = .next t ∧ v = t.push es := by
  constructor
  · intro hx
    have hinp : v.inp = es ++ s.inp := execWord_inp hx
    refine ⟨{ v with inp := s.inp }, execWord_with_inp (s := s.push es) s.inp hx, ?_⟩
    show v = { v with inp := es ++ s.inp }
    rw [← hinp]
  · rintro ⟨t, hx, rfl⟩
    rw [State.push, State.push, execWord_inp hx]
    exact execWord_with_inp _ hx

@[simp] theorem send_nil (s : State) : send [] s = .next s := rfl

theorem send_cons {w : CmdWord} {ws : List CmdWord} {s u : State} :
    send (w :: ws) s = .next u ↔ ∃ t, execWord w s = .next t ∧ send ws t = .next u := by
  have hstep : step (s.push ((w :: ws).map .cmd)) = execWord w (s.push (ws.map .cmd)) := step_eq_execWord rfl
  rw [send, List.length_cons, run_succ, hstep]
  simp only [execWord_push_iff]
  constructor
  · rintro ⟨_, ⟨t, ht, rfl⟩, hrun⟩
    exact ⟨t, ht, hrun⟩
  · rintro ⟨t, ht, hrun⟩
    exact ⟨_, ⟨t, ht, rfl⟩, hrun⟩

theorem send_append {ws ws' : List CmdWord} {s u : State} :
    send (ws ++ ws') s = .next u ↔ ∃ t, send ws s = .next t ∧ send ws' t = .next u := by
  induction ws generalizing s with
  | nil => simp
  | cons w ws ih =>
    simp only [List.cons_append, send_cons, ih]
    constructor
    · rintro ⟨v, hv, t, ht, hu⟩
      exact ⟨t, ⟨v, hv, ht⟩, hu⟩
    · rintro ⟨t, ⟨v, hv, ht⟩, hu⟩
      exact ⟨v, hv, t, ht, hu⟩

theorem send_singleton {w : CmdWord} {s u : State} : send [w] s = .next u ↔ execWord w s = .next u := by
  simp [send_cons]

theorem send_keeps_inv {ws : List CmdWord} {s t : State} (h : s.Inv) (hsend : send ws s = .next t) : t.Inv :=
  run_keeps step_keeps_inv (h.with_ports _ s.rsp) hsend

theorem execWord_keeps_frozen {w : CmdWord} {s t : State} (hm : s.mode = .ready) (hx : execWord w s = .next t) :
    t.FrozenAs s := by
  have hsent := alphabetIsFrozenInReady s t [w] hm (send_singleton.mpr hx)
  obtain ⟨hmode, halpha, hridx, hcfgcnt⟩ := hsent
  exact ⟨hmode, halpha, hridx, hcfgcnt⟩

theorem send_keeps_frozen {ws : List CmdWord} {s t : State} (hm : s.mode = .ready) (hsend : send ws s = .next t) :
    t.FrozenAs s := by
  obtain ⟨hmode, halpha, hridx, hcfgcnt⟩ := alphabetIsFrozenInReady s t ws hm hsend
  exact ⟨hmode, halpha, hridx, hcfgcnt⟩

end Sys2Proof.Machine

namespace Sys2Proof.Machine

/-! ### The two lanes side by side (spec/42_encode_commands.md R123, 43_decode_commands.md R135) -/

/-- In `READY` a command word is one lane's command, or it is refused. -/
theorem execWord_ready {w : CmdWord} {s t : State} (hm : s.mode = .ready) (hx : execWord w s = .next t) :
    (∃ i, decodeWord w = some i ∧ (i.isEncoder = true ∨ i.isDecoder = true) ∧ exec i s = .next t) ∨
      (decodeWord w).any Instr.isEncoder = false ∧ (decodeWord w).any Instr.isDecoder = false ∧
        t = s.emits [.fault .illegalCommand] := by
  cases hdec : decodeWord w with
  | none => exact .inr ⟨rfl, rfl, by simpa [execWord_of_reserved hdec] using hx.symm⟩
  | some i =>
    rw [execWord_of_command hdec] at hx
    cases i with
    | encPut b => exact .inl ⟨_, rfl, .inl rfl, hx⟩
    | encEnd => exact .inl ⟨_, rfl, .inl rfl, hx⟩
    | decPut c => exact .inl ⟨_, rfl, .inr rfl, hx⟩
    | decEnd => exact .inl ⟨_, rfl, .inr rfl, hx⟩
    | cfgSym c =>
      obtain ⟨-, rfl⟩ | ⟨hconfig, -⟩ | ⟨hconfig, -⟩ := execCfgSym_next hx
      · exact .inr ⟨rfl, rfl, rfl⟩
      · simp [hm] at hconfig
      · simp [hm] at hconfig
    | cfgCommit =>
      obtain ⟨-, rfl⟩ | ⟨hconfig, -⟩ | ⟨hconfig, -⟩ := execCfgCommit_next hx
      · exact .inr ⟨rfl, rfl, rfl⟩
      · simp [hm] at hconfig
      · simp [hm] at hconfig

/-- The encoder's words of a log (R71). -/
def encoderSpeaks (w : RspWord) : Bool := kindField w == 0x3 || kindField w == 0x4

/-- The decoder's words of a log (R71). -/
def decoderSpeaks (w : RspWord) : Bool := kindField w == 0x5 || kindField w == 0x6

theorem Answers.encoderSpeaks {i : Instr} {r : Response} (h : Answers i r) : encoderSpeaks r.word = i.isEncoder := by
  rw [Machine.encoderSpeaks, kindField_word]
  cases h <;> rfl

theorem Answers.decoderSpeaks {i : Instr} {r : Response} (h : Answers i r) : decoderSpeaks r.word = i.isDecoder := by
  rw [Machine.decoderSpeaks, kindField_word]
  cases h <;> rfl

/-- In `READY` each lane's commands answer with that lane's words. -/
theorem exec_lane_speaks {i : Instr} {s t : State} (hm : s.mode = .ready) (hi : i.isEncoder = true ∨ i.isDecoder = true)
    (hx : exec i s = .next t) :
    ∃ l, t.rsp = s.rsp ++ l ∧ ∀ w ∈ l, encoderSpeaks w = i.isEncoder ∧ decoderSpeaks w = i.isDecoder := by
  have hl : legalIn i s.mode = true := by rw [legalIn_of_lane hi, hm]; rfl
  obtain ⟨rs, hrsp, -, hanswers⟩ := exec_legal_emits hl hx
  refine ⟨_, hrsp, ?_⟩
  simp only [List.forall_mem_map]
  exact fun r hr => ⟨(hanswers r hr).encoderSpeaks, (hanswers r hr).decoderSpeaks⟩

theorem any_decodeWord_iff {w : CmdWord} {p : Instr → Bool} :
    (decodeWord w).any p = true ↔ ∃ i, decodeWord w = some i ∧ p i = true := by
  cases decodeWord w <;> simp

/-- One lane: its commands, its words of the log, and the elements that its commands read and write. -/
structure Lane (α : Type) where
  owns : Instr → Bool
  speaks : RspWord → Bool
  view : State → α

/-- What makes a lane independent: its commands go by its view alone, and in `READY` the other words leave the view as it is
and answer with other words. -/
structure Lane.Independent {α : Type} (L : Lane α) : Prop where
  own : ∀ {i : Instr} {s s' t : State}, L.owns i = true → s.mode = .ready → L.view s' = L.view s → exec i s = .next t →
    ∃ t' l, exec i s' = .next t' ∧ t.rsp = s.rsp ++ l ∧ t'.rsp = s'.rsp ++ l ∧ l.filter L.speaks = l ∧ L.view t' = L.view t
  other : ∀ {w : CmdWord} {s t : State}, (decodeWord w).any L.owns = false → s.mode = .ready → execWord w s = .next t →
    ∃ l, t.rsp = s.rsp ++ l ∧ l.filter L.speaks = [] ∧ L.view t = L.view s

/-- The run on the lane's own commands alone keeps step with the run on the whole stream. -/
theorem Lane.Independent.send_filter {α : Type} {L : Lane α} (hL : L.Independent) {ws : List CmdWord} {s s' t : State}
    (hm : s.mode = .ready) (hview : L.view s' = L.view s) (hsend : send ws s = .next t) :
    ∃ t' l, send (ws.filter fun w => (decodeWord w).any L.owns) s' = .next t' ∧ t.rsp = s.rsp ++ l ∧
      t'.rsp = s'.rsp ++ l.filter L.speaks ∧ L.view t' = L.view t := by
  induction ws generalizing s s' with
  | nil =>
    obtain rfl : s = t := by simpa using hsend
    exact ⟨s', [], rfl, by simp, by simp, hview⟩
  | cons w ws ih =>
    obtain ⟨u, hu, hrest⟩ := send_cons.mp hsend
    have hmu : u.mode = .ready := (execWord_keeps_frozen hm hu).mode
    cases hown : (decodeWord w).any L.owns with
    | true =>
      obtain ⟨i, hdec, hi⟩ := any_decodeWord_iff.mp hown
      rw [execWord_of_command hdec] at hu
      obtain ⟨u', l, hu', hrsp, hrsp', hspeaks, hview'⟩ := hL.own hi hm hview hu
      obtain ⟨t', l', ht', hrspt, hrspt', hviewt⟩ := ih hmu hview' hrest
      refine ⟨t', l ++ l', ?_, by rw [hrspt, hrsp, List.append_assoc], ?_, hviewt⟩
      · rw [List.filter_cons, if_pos hown]
        exact send_cons.mpr ⟨u', by rwa [execWord_of_command hdec], ht'⟩
      · rw [hrspt', hrsp', List.filter_append, hspeaks, List.append_assoc]
    | false =>
      obtain ⟨l, hrsp, hspeaks, hview'⟩ := hL.other hown hm hu
      obtain ⟨t', l', ht', hrspt, hrspt', hviewt⟩ := ih hmu (hview.trans hview'.symm) hrest
      refine ⟨t', l ++ l', ?_, by rw [hrspt, hrsp, List.append_assoc], ?_, hviewt⟩
      · rwa [List.filter_cons, if_neg (by simp [hown])]
      · rw [hrspt', List.filter_append, hspeaks, List.nil_append]

/-- The encoder lane, with its read and write columns of R33. -/
def encoderLane : Lane (Mode × Vector Symbol 32 × BitVec 4 × BitVec 3) where
  owns := Instr.isEncoder
  speaks := encoderSpeaks
  view s := (s.mode, s.alpha, s.eacc, s.ecnt)

/-- The decoder lane, with its read and write columns of R33. -/
def decoderLane : Lane (Mode × Vector RidxEntry 256 × BitVec 7 × BitVec 3 × Bool) where
  owns := Instr.isDecoder
  speaks := decoderSpeaks
  view s := (s.mode, s.ridx, s.dacc, s.dcnt, s.derr)

theorem encoderLane_view_eq_iff {s s' : State} :
    encoderLane.view s' = encoderLane.view s ↔
      s'.mode = s.mode ∧ s'.alpha = s.alpha ∧ s'.eacc = s.eacc ∧ s'.ecnt = s.ecnt := by
  simp [encoderLane]

theorem decoderLane_view_eq_iff {s s' : State} :
    decoderLane.view s' = decoderLane.view s ↔
      s'.mode = s.mode ∧ s'.ridx = s.ridx ∧ s'.dacc = s.dacc ∧ s'.dcnt = s.dcnt ∧ s'.derr = s.derr := by
  simp [decoderLane]

theorem isDecoder_of_not_isEncoder {i : Instr} (hi : i.isEncoder = true ∨ i.isDecoder = true) (hne : i.isEncoder = false) :
    i.isDecoder = true := by
  simpa [hne] using hi

/-- A decoder command does not write the encoder lane. -/
theorem exec_isDecoder_encoderLane_view {i : Instr} {s t : State} (hi : i.isDecoder = true) (hx : exec i s = .next t) :
    encoderLane.view t = encoderLane.view s := by
  obtain ⟨-, hwrite⟩ := commandsWriteOnlyTheirElements i s t hx
  cases i with
  | decPut c => rw [hwrite]; rfl
  | decEnd => rw [hwrite]; rfl
  | cfgSym c => simp [Instr.isDecoder] at hi
  | cfgCommit => simp [Instr.isDecoder] at hi
  | encPut b => simp [Instr.isDecoder] at hi
  | encEnd => simp [Instr.isDecoder] at hi

/-- An encoder command does not write the decoder lane. -/
theorem exec_isEncoder_decoderLane_view {i : Instr} {s t : State} (hi : i.isEncoder = true) (hx : exec i s = .next t) :
    decoderLane.view t = decoderLane.view s := by
  obtain ⟨-, hwrite⟩ := commandsWriteOnlyTheirElements i s t hx
  cases i with
  | encPut b => rw [hwrite]; rfl
  | encEnd => rw [hwrite]; rfl
  | cfgSym c => simp [Instr.isEncoder] at hi
  | cfgCommit => simp [Instr.isEncoder] at hi
  | decPut c => simp [Instr.isEncoder] at hi
  | decEnd => simp [Instr.isEncoder] at hi

theorem encoderLane_independent : encoderLane.Independent where
  own {i s s' t} hi hm hview hx := by
    obtain ⟨hmode, halpha, heacc, hecnt⟩ := encoderLane_view_eq_iff.mp hview
    obtain ⟨l, hrsp, hx'⟩ := encoderReadsOnlyItsElements i s t s' hi hx hmode halpha heacc hecnt
    obtain ⟨l₂, hrsp₂, hspeaks⟩ := exec_lane_speaks hm (.inl hi) hx
    obtain rfl : l = l₂ := List.append_cancel_left (hrsp.symm.trans hrsp₂)
    have hfrozen := exec_keeps_frozen ⟨hm, rfl, rfl, rfl⟩ hx
    refine ⟨_, l, hx', hrsp, rfl, List.filter_eq_self.mpr fun w hw => (hspeaks w hw).left.trans hi, ?_⟩
    exact encoderLane_view_eq_iff.mpr ⟨(hmode.trans hm).trans hfrozen.mode.symm, halpha.trans hfrozen.alpha.symm, rfl, rfl⟩
  other {w s t} hown hm hx := by
    obtain ⟨i, hdec, hi, hx⟩ | ⟨-, -, rfl⟩ := execWord_ready hm hx
    · have hne : i.isEncoder = false := by simpa [encoderLane, hdec] using hown
      obtain ⟨l, hrsp, hspeaks⟩ := exec_lane_speaks hm hi hx
      refine ⟨l, hrsp, List.filter_eq_nil_iff.mpr fun w hw => ?_,
        exec_isDecoder_encoderLane_view (isDecoder_of_not_isEncoder hi hne) hx⟩
      simp [encoderLane, (hspeaks w hw).left, hne]
    · exact ⟨_, rfl, rfl, rfl⟩

theorem decoderLane_independent : decoderLane.Independent where
  own {i s s' t} hi hm hview hx := by
    obtain ⟨hmode, hridx, hdacc, hdcnt, hderr⟩ := decoderLane_view_eq_iff.mp hview
    obtain ⟨l, hrsp, hx'⟩ := decoderReadsOnlyItsElements i s t s' hi hx hmode hridx hdacc hdcnt hderr
    obtain ⟨l₂, hrsp₂, hspeaks⟩ := exec_lane_speaks hm (.inr hi) hx
    obtain rfl : l = l₂ := List.append_cancel_left (hrsp.symm.trans hrsp₂)
    have hfrozen := exec_keeps_frozen ⟨hm, rfl, rfl, rfl⟩ hx
    refine ⟨_, l, hx', hrsp, rfl, List.filter_eq_self.mpr fun w hw => (hspeaks w hw).right.trans hi, ?_⟩
    exact decoderLane_view_eq_iff.mpr
      ⟨(hmode.trans hm).trans hfrozen.mode.symm, hridx.trans hfrozen.ridx.symm, rfl, rfl, rfl⟩
  other {w s t} hown hm hx := by
    obtain ⟨i, hdec, hi, hx⟩ | ⟨-, -, rfl⟩ := execWord_ready hm hx
    · have hne : i.isDecoder = false := by simpa [decoderLane, hdec] using hown
      obtain ⟨l, hrsp, hspeaks⟩ := exec_lane_speaks hm hi hx
      refine ⟨l, hrsp, List.filter_eq_nil_iff.mpr fun w hw => ?_,
        exec_isEncoder_decoderLane_view (by simpa [hne] using hi) hx⟩
      simp [decoderLane, (hspeaks w hw).right, hne]
    · exact ⟨_, rfl, rfl, rfl⟩

/-- Settles O35: the run on the encoder words alone keeps step with the whole run, word by word. -/
theorem encoderLaneIsIndependent : Obligations.EncoderLaneIsIndependent := by
  intro s ws hinv hm
  obtain ⟨t, ht⟩ := send_completes hinv ws
  obtain ⟨t', l, ht', hrsp, hrsp', hview⟩ := encoderLane_independent.send_filter hm rfl ht
  obtain ⟨-, -, heacc, hecnt⟩ := encoderLane_view_eq_iff.mp hview
  exact ⟨t, t', l, _, ht, hrsp, ht', hrsp', rfl, heacc.symm, hecnt.symm⟩

end Sys2Proof.Machine

namespace Sys2Proof.Machine

/-! ### The bit buffer moves bits (spec/42_encode_commands.md R120, 43_decode_commands.md R130) -/

/-- A bit sequence is known from its length and its number. -/
theorem eq_of_natOfBits_eq {l l' : List Bool} (hlen : l.length = l'.length) (hnat : natOfBits l = natOfBits l') : l = l' := by
  rw [← bitsMsb_ofNat_natOfBits hlen, hnat, bitsMsb_ofNat_natOfBits rfl]

/-- The low `k` bits of a number, most significant first. -/
def lowBits (k v : Nat) : List Bool := bitsMsb (BitVec.ofNat k v)

@[simp] theorem length_lowBits (k v : Nat) : (lowBits k v).length = k := length_bitsMsb _

@[simp] theorem natOfBits_lowBits (k v : Nat) : natOfBits (lowBits k v) = v % 2 ^ k := by
  rw [lowBits, natOfBits_bitsMsb, BitVec.toNat_ofNat]

theorem bitsMsb_eq_lowBits {w : Nat} (v : BitVec w) : bitsMsb v = lowBits w v.toNat := by
  rw [lowBits, BitVec.ofNat_toNat, BitVec.setWidth_eq]

@[simp] theorem lowBits_trunc (k v : Nat) : lowBits k (trunc k v) = lowBits k v :=
  eq_of_natOfBits_eq (by simp) (by simp [trunc])

theorem lowBits_add (m k v : Nat) : lowBits (m + k) v = lowBits m (v >>> k) ++ lowBits k v := by
  refine eq_of_natOfBits_eq (by simp) ?_
  simp only [natOfBits_append, natOfBits_lowBits, length_lowBits, Nat.shiftRight_eq_div_pow]
  rw [Nat.pow_add, Nat.mul_comm (2 ^ m), Nat.mod_mul]
  ring

theorem lowBits_appendBits (acc cnt : Nat) {n v : Nat} (hv : v < 2 ^ n) :
    lowBits (cnt + n) (appendBits acc n v) = lowBits cnt acc ++ lowBits n v := by
  have hhigh : appendBits acc n v >>> n = acc := by
    rw [appendBits_eq acc hv, Nat.shiftRight_eq_div_pow, Nat.add_comm, Nat.add_mul_div_right _ _ (by positivity),
      Nat.div_eq_of_lt hv, Nat.zero_add]
  have hlow : trunc n (appendBits acc n v) = v := by
    rw [trunc, appendBits_eq acc hv, Nat.mul_add_mod', Nat.mod_eq_of_lt hv]
  rw [lowBits_add, hhigh, ← lowBits_trunc n (appendBits acc n v), hlow]

/-- The groups taken out and the bits left over are the bits of the buffer, in order. -/
theorem lowBits_eq_drain (width rounds acc cnt : Nat) :
    lowBits cnt acc = (drain width rounds acc cnt).groups.flatMap (lowBits width) ++
      lowBits (drain width rounds acc cnt).cnt (drain width rounds acc cnt).acc := by
  induction rounds generalizing acc cnt with
  | zero => rfl
  | succ rounds ih =>
    rw [drain]
    split
    case isTrue hle =>
      obtain ⟨k, rfl⟩ := Nat.exists_eq_add_of_le hle
      simp only [Nat.add_sub_cancel_left, List.flatMap_cons, List.append_assoc, ← ih, lowBits_trunc, lowBits_add]
    case isFalse => rfl

/-- Bits are cut into values of `w` bits and fewer than `w` bits left over in one way only. -/
theorem flatMap_bitsMsb_append_inj {w : Nat} {vs us : List (BitVec w)} {r r' : List Bool}
    (h : vs.flatMap bitsMsb ++ r = us.flatMap bitsMsb ++ r') (hr : r.length < w) (hr' : r'.length < w) : vs = us ∧ r = r' := by
  have hw : 0 < w := by omega
  have htotal := congrArg List.length h
  simp only [List.length_append, length_flatMap_bitsMsb] at htotal
  have hlen : vs.length = us.length := by
    have hdiv := congrArg (· / w) htotal
    simpa [Nat.mul_add_div hw, Nat.div_eq_of_lt hr, Nat.div_eq_of_lt hr'] using hdiv
  obtain ⟨hbits, hrest⟩ := List.append_inj h (by rw [length_flatMap_bitsMsb, length_flatMap_bitsMsb, hlen])
  exact ⟨flatMap_bitsMsb_injective hw hbits, hrest⟩

end Sys2Proof.Machine

namespace Sys2Proof.Machine

/-! ### The bits that the lanes hold (spec/10_state.md R24, R25) -/

/-- The message bits that the encoder holds, oldest first. -/
def State.encoderBits (s : State) : List Bool := lowBits s.ecnt.toNat s.eacc.toNat

/-- The index bits that the decoder holds, oldest first. -/
def State.decoderBits (s : State) : List Bool := lowBits s.dcnt.toNat s.dacc.toNat

@[simp] theorem State.length_encoderBits (s : State) : s.encoderBits.length = s.ecnt.toNat := length_bitsMsb _

@[simp] theorem State.length_decoderBits (s : State) : s.decoderBits.length = s.dcnt.toNat := length_bitsMsb _

theorem State.EncoderLegal.natOfBits {s : State} (h : s.EncoderLegal) : natOfBits s.encoderBits = s.eacc.toNat := by
  rw [State.encoderBits, natOfBits_lowBits, Nat.mod_eq_of_lt h.right]

theorem State.EncoderIdle.encoderBits {s : State} (h : s.EncoderIdle) : s.encoderBits = [] := by
  rw [State.encoderBits, h.ecnt]
  rfl

theorem State.DecoderIdle.decoderBits {s : State} (h : s.DecoderIdle) : s.decoderBits = [] := by
  rw [State.decoderBits, h.dcnt]
  rfl

theorem State.EncoderIdle.encoderLegal {s : State} (h : s.EncoderIdle) : s.EncoderLegal := by
  rw [State.EncoderLegal, h.ecnt, h.eacc]
  decide

theorem flatMap_lowBits (w : Nat) (gs : List Nat) : gs.flatMap (lowBits w) = (gs.map (BitVec.ofNat w)).flatMap bitsMsb := by
  rw [List.flatMap_map]
  rfl

/-- Taking a byte into the encoder's buffer loses and moves no bit. -/
theorem State.encoderBuffer_bits (s : State) (b : Byte) :
    s.encoderBits ++ bitsMsb b = bitsOf5 ((s.encoderBuffer b).groups.map (BitVec.ofNat 5)) ++
      lowBits (s.encoderBuffer b).cnt (s.encoderBuffer b).acc := by
  rw [State.encoderBits, bitsMsb_eq_lowBits, ← lowBits_appendBits _ _ b.isLt, bitsOf5, ← flatMap_lowBits]
  exact lowBits_eq_drain ..

/-- Taking an index into the decoder's buffer loses and moves no bit. -/
theorem State.decoderBuffer_bits (s : State) (i : Group) :
    s.decoderBits ++ bitsMsb i = bitsOf8 ((s.decoderBuffer i).groups.map (BitVec.ofNat 8)) ++
      lowBits (s.decoderBuffer i).cnt (s.decoderBuffer i).acc := by
  rw [State.decoderBits, bitsMsb_eq_lowBits, ← lowBits_appendBits _ _ i.isLt, bitsOf8, ← flatMap_lowBits]
  exact lowBits_eq_drain ..

/-- The registers are wide enough for every legal residual. -/
theorem State.setEncoder_encoderBits (s : State) {acc cnt : Nat} (hk : cnt < 5) (ha : acc < 2 ^ cnt) :
    (s.setEncoder acc cnt).encoderBits = lowBits cnt acc := by
  have hfit : acc < 2 ^ 4 := ha.trans_le (Nat.pow_le_pow_right (by decide) (by omega))
  rw [State.encoderBits, State.setEncoder_ecnt, State.setEncoder_eacc, BitVec.toNat_ofNat, BitVec.toNat_ofNat,
    Nat.mod_eq_of_lt (by omega), Nat.mod_eq_of_lt hfit]

theorem State.setDecoder_decoderBits (s : State) {acc cnt : Nat} (hk : cnt < 8) (ha : acc < 2 ^ cnt) :
    (s.setDecoder acc cnt).decoderBits = lowBits cnt acc := by
  have hfit : acc < 2 ^ 7 := ha.trans_le (Nat.pow_le_pow_right (by decide) (by omega))
  rw [State.decoderBits, State.setDecoder_dcnt, State.setDecoder_dacc, BitVec.toNat_ofNat, BitVec.toNat_ofNat,
    Nat.mod_eq_of_lt (by omega), Nat.mod_eq_of_lt hfit]

end Sys2Proof.Machine

namespace Sys2Proof.Machine

/-! ### The encoder commands, as bits (spec/42_encode_commands.md R120, R121, R122) -/

/-- The `ESYM` word of a group value (R71, R90). -/
def symbolWord (alpha : Vector Symbol 32) (g : Group) : RspWord := 0x300 + (alpha[g.toNat]'g.isLt).setWidth 12

theorem map_symbolOf_word (s : State) (gs : List Nat) :
    (gs.map s.symbolOf).map Response.word = (gs.map (BitVec.ofNat 5)).map (symbolWord s.alpha) := by
  simp only [List.map_map]
  exact List.map_congr_left fun g _ => word_esym _

theorem exec_encPut_bits {s t : State} {b : Byte} (hm : s.mode = .ready) (hx : exec (.encPut b) s = .next t) :
    t.EncoderLegal ∧ ∃ gs : List Group, t.rsp = s.rsp ++ gs.map (symbolWord s.alpha) ∧
      s.encoderBits ++ bitsMsb b = bitsOf5 gs ++ t.encoderBits := by
  obtain ⟨hne, -⟩ | ⟨-, he, rfl⟩ := execEncPut_next hx
  · exact absurd hm hne
  · obtain ⟨hk, ha⟩ := State.encoderBuffer_legal he b
    refine ⟨s.setEncoder_legal hk ha, _, by rw [State.emits_rsp, map_symbolOf_word]; rfl, ?_⟩
    exact (s.encoderBuffer_bits b).trans (congrArg _ (s.setEncoder_encoderBits hk ha).symm)

theorem State.paddedGroup_of_empty {s : State} (hk : s.ecnt = 0) : s.paddedGroup = [] := by
  rw [State.paddedGroup, hk]
  rfl

/-- R121: the residual moved to the top of a group. -/
theorem State.paddedGroup_of_pos {s : State} (he : s.EncoderLegal) (hk : s.ecnt ≠ 0) :
    s.paddedGroup = [s.eacc.toNat * 2 ^ (5 - s.ecnt.toNat)] ∧ s.eacc.toNat * 2 ^ (5 - s.ecnt.toNat) < 2 ^ 5 := by
  obtain ⟨hcnt, hacc⟩ := he
  have hpos : 0 < s.ecnt.toNat := Nat.pos_of_ne_zero fun h0 => hk (BitVec.eq_of_toNat_eq h0)
  have hlt : s.eacc.toNat * 2 ^ (5 - s.ecnt.toNat) < 2 ^ 5 := calc
    _ < 2 ^ s.ecnt.toNat * 2 ^ (5 - s.ecnt.toNat) := Nat.mul_lt_mul_of_pos_right hacc (by positivity)
    _ = 2 ^ 5 := by rw [← Nat.pow_add, Nat.add_sub_cancel' (by omega)]
  exact ⟨by rw [State.paddedGroup, if_pos hpos, Nat.shiftLeft_eq, trunc, Nat.mod_eq_of_lt hlt], hlt⟩

/-- The last group holds the residual and then fewer than five zero bits. -/
theorem State.paddedGroup_bits {s : State} (he : s.EncoderLegal) :
    ∃ pad < 5, bitsOf5 (s.paddedGroup.map (BitVec.ofNat 5)) = s.encoderBits ++ List.replicate pad false := by
  by_cases hk : s.ecnt = 0
  · refine ⟨0, by decide, ?_⟩
    rw [State.paddedGroup_of_empty hk, State.encoderBits, hk]
    rfl
  · obtain ⟨hgroup, hlt⟩ := State.paddedGroup_of_pos he hk
    have hpos : 0 < s.ecnt.toNat := Nat.pos_of_ne_zero fun h0 => hk (BitVec.eq_of_toNat_eq h0)
    have hcnt := he.left
    refine ⟨5 - s.ecnt.toNat, by omega, ?_⟩
    rw [hgroup, bitsOf5, ← flatMap_lowBits, List.flatMap_singleton]
    refine eq_of_natOfBits_eq (by simp; omega) ?_
    rw [natOfBits_lowBits, Nat.mod_eq_of_lt hlt, natOfBits_append, he.natOfBits, natOfBits_replicate_false,
      List.length_replicate, Nat.add_zero]

theorem exec_encEnd_bits {s t : State} (hm : s.mode = .ready) (hx : exec .encEnd s = .next t) :
    t.EncoderIdle ∧ ∃ (gs : List Group) (pad : Nat), t.rsp = s.rsp ++ (gs.map (symbolWord s.alpha) ++ [0x400]) ∧
      pad < 5 ∧ bitsOf5 gs = s.encoderBits ++ List.replicate pad false := by
  obtain ⟨hne, -⟩ | ⟨-, he, rfl⟩ := execEncEnd_next hx
  · exact absurd hm hne
  · obtain ⟨pad, hpad, hbits⟩ := State.paddedGroup_bits he
    refine ⟨⟨rfl, rfl⟩, _, pad, ?_, hpad, hbits⟩
    rw [State.emits_rsp, List.map_append, map_symbolOf_word]
    rfl

/-- The symbols of a message's bytes: the bits held before and the message's bits are those of the groups and those held after. -/
theorem send_encPuts {M : List Byte} {s t : State} (hm : s.mode = .ready) (he : s.EncoderLegal)
    (hsend : send (M.map fun b => encode (.encPut b)) s = .next t) :
    t.EncoderLegal ∧ ∃ gs : List Group, t.rsp = s.rsp ++ gs.map (symbolWord s.alpha) ∧
      s.encoderBits ++ bitsOf8 M = bitsOf5 gs ++ t.encoderBits := by
  induction M generalizing s with
  | nil =>
    obtain rfl : s = t := by simpa using hsend
    exact ⟨he, [], by simp, by simp [bitsOf8, bitsOf5]⟩
  | cons b M ih =>
    obtain ⟨u, hu, hrest⟩ := send_cons.mp hsend
    have hfrozen := execWord_keeps_frozen hm hu
    rw [execWord_encode] at hu
    obtain ⟨heu, gs, hrsp, hbits⟩ := exec_encPut_bits hm hu
    obtain ⟨het, gs', hrsp', hbits'⟩ := ih hfrozen.mode heu hrest
    refine ⟨het, gs ++ gs', by rw [hrsp', hrsp, hfrozen.alpha, List.map_append, List.append_assoc], ?_⟩
    calc s.encoderBits ++ (bitsMsb b ++ bitsOf8 M) = bitsOf5 gs ++ (u.encoderBits ++ bitsOf8 M) := by
          rw [← List.append_assoc, hbits, List.append_assoc]
      _ = (bitsOf5 gs ++ bitsOf5 gs') ++ t.encoderBits := by rw [hbits', List.append_assoc]
      _ = bitsOf5 (gs ++ gs') ++ t.encoderBits := by rw [bitsOf5, bitsOf5, bitsOf5, List.flatMap_append]

/-- The groups of a message are known from their bits: the message's, and fewer than five zeros. -/
theorem eq_groupsOf {M : List Byte} {gs : List Group} {pad : Nat} (hpad : pad < 5)
    (h : bitsOf5 gs = bitsOf8 M ++ List.replicate pad false) : gs = groupsOf M := by
  have hlen := congrArg List.length h
  rw [length_bitsOf5, List.length_append, length_bitsOf8, List.length_replicate] at hlen
  have hpad' : 5 * tokenLength M.length - 8 * M.length = pad := by rw [tokenLength]; omega
  rw [← bitsOf5_inj, bitsOf5_groupsOf, paddedBits, hpad', h]

theorem words_encodeCall (M : List Byte) :
    (Pseudo.encode M).words = M.map (fun b => encode (.encPut b)) ++ [encode .encEnd] :=
  map_encode_expansion .encPut M .encEnd

/-- R124 for the encoder's words alone: one encode call. -/
theorem send_encodeCall {M : List Byte} {s t : State} (hm : s.mode = .ready) (hidle : s.EncoderIdle)
    (hsend : send (Pseudo.encode M).words s = .next t) :
    t.EncoderIdle ∧ t.rsp = s.rsp ++ ((groupsOf M).map (symbolWord s.alpha) ++ [0x400]) := by
  rw [words_encodeCall, send_append] at hsend
  obtain ⟨u, hu, hend⟩ := hsend
  have hfrozen := send_keeps_frozen hm hu
  obtain ⟨-, gs, hrsp, hbits⟩ := send_encPuts hm hidle.encoderLegal hu
  rw [send_singleton, execWord_encode] at hend
  obtain ⟨hidle', gs', pad, hrsp', hpad, hbits'⟩ := exec_encEnd_bits hfrozen.mode hend
  have hgroups : gs ++ gs' = groupsOf M := by
    refine eq_groupsOf hpad ?_
    rw [bitsOf5, List.flatMap_append, ← bitsOf5, ← bitsOf5, hbits', ← List.append_assoc, ← hbits, hidle.encoderBits,
      List.nil_append]
  refine ⟨hidle', ?_⟩
  rw [hrsp', hrsp, hfrozen.alpha, ← hgroups, List.map_append, List.append_assoc, List.append_assoc]

end Sys2Proof.Machine

namespace Sys2Proof.Machine

/-! ### The case table of `ENC.PUT` (spec/42_encode_commands.md R120) -/

theorem toNat_setWidth_lt {w : Nat} (v : BitVec w) (m : Nat) : (v.setWidth m).toNat < 2 ^ w := by
  rw [BitVec.toNat_setWidth]
  exact (Nat.mod_le _ _).trans_lt v.isLt

theorem lowBits_toNat {w : Nat} (k : Nat) (v : BitVec w) : lowBits k v.toNat = bitsMsb (v.setWidth k) := by
  rw [lowBits, BitVec.ofNat_toNat]

theorem bitsMsb_append {m n : Nat} (x : BitVec m) (y : BitVec n) : bitsMsb (x ++ y) = bitsMsb x ++ bitsMsb y := by
  rw [bitsMsb_eq_lowBits (x ++ y), BitVec.toNat_append, ← appendBits, lowBits_appendBits _ _ y.isLt, ← bitsMsb_eq_lowBits,
    ← bitsMsb_eq_lowBits]

/-- Every row of the table keeps the bits in order: those held and the byte's are those of the groups and those held after. -/
theorem encPutRow_bits {k : BitVec 3} (hk : k.toNat ≤ 4) (e : BitVec 4) (b : Byte) :
    ∃ gs e' k', encPutRow k e b = some (gs, e', k') ∧ k'.toNat < 5 ∧ e'.toNat < 2 ^ k'.toNat ∧
      lowBits k.toNat e.toNat ++ bitsMsb b = bitsOf5 gs ++ lowBits k'.toNat e'.toNat := by
  obtain rfl | rfl | rfl | rfl | rfl : k = 0 ∨ k = 1 ∨ k = 2 ∨ k = 3 ∨ k = 4 := by
    simp only [← BitVec.toNat_inj, BitVec.reduceToNat]; omega
  · refine ⟨_, _, _, rfl, by decide, toNat_setWidth_lt .., ?_⟩
    rw [lowBits_toNat, lowBits_toNat]
    simp [bitsOf5, bitsMsb, List.range_succ]
  · refine ⟨_, _, _, rfl, by decide, toNat_setWidth_lt .., ?_⟩
    rw [lowBits_toNat, lowBits_toNat, bitsOf5, List.flatMap_cons, bitsMsb_append]
    simp [bitsMsb, List.range_succ]
  · refine ⟨_, _, _, rfl, by decide, by decide, ?_⟩
    rw [lowBits_toNat, lowBits_toNat, bitsOf5, List.flatMap_cons, bitsMsb_append]
    simp [bitsMsb, List.range_succ]
  · refine ⟨_, _, _, rfl, by decide, toNat_setWidth_lt .., ?_⟩
    rw [lowBits_toNat, lowBits_toNat, bitsOf5, List.flatMap_cons, bitsMsb_append]
    simp [bitsMsb, List.range_succ]
  · refine ⟨_, _, _, rfl, by decide, toNat_setWidth_lt .., ?_⟩
    rw [lowBits_toNat, lowBits_toNat, bitsOf5, List.flatMap_cons, bitsMsb_append]
    simp [bitsMsb, List.range_succ]

/-- Settles O32: the row and the buffer hold the same bits, which are cut into groups in one way only. -/
theorem encPutFollowsTheCaseTable : Obligations.EncPutFollowsTheCaseTable := by
  refine fun b s => ⟨fun hm => exec_lane_of_not_ready (.inl rfl) hm, fun hm hk ha => ?_⟩
  obtain ⟨gs, e', k', hrow, hk', he', hrowbits⟩ := encPutRow_bits hk s.eacc b
  refine ⟨gs, e', k', hrow, ?_⟩
  obtain ⟨hcnt, hacc⟩ := State.encoderBuffer_legal ⟨hk, ha⟩ b
  obtain ⟨hgroups, hbits⟩ := flatMap_bitsMsb_append_inj ((s.encoderBuffer_bits b).symm.trans hrowbits)
    (by rwa [length_lowBits]) (by rwa [length_lowBits])
  have hcnteq : (s.encoderBuffer b).cnt = k'.toNat := by simpa using congrArg List.length hbits
  have hacceq : (s.encoderBuffer b).acc = e'.toNat := by
    simpa only [natOfBits_lowBits, Nat.mod_eq_of_lt hacc, Nat.mod_eq_of_lt he'] using congrArg natOfBits hbits
  rw [exec_encPut_of_legal hm ⟨hk, ha⟩, State.emits_eq, map_symbolOf_word, hgroups, hcnteq, hacceq, State.setEncoder,
    BitVec.ofNat_toNat, BitVec.ofNat_toNat, BitVec.setWidth_eq, BitVec.setWidth_eq]
  rfl

/-! ### `ENC.END` (spec/42_encode_commands.md R121) -/

/-- Settles O33, by the padded group of each case. -/
theorem encEndFlushesThePaddedResidual : Obligations.EncEndFlushesThePaddedResidual := by
  refine fun s => ⟨fun hm => exec_lane_of_not_ready (.inl rfl) hm, fun hm hk ha => ?_⟩
  rw [exec_encEnd_of_legal hm ⟨hk, ha⟩, State.emits_eq, List.map_append, map_symbolOf_word]
  refine ⟨fun hzero => ?_, fun hpos => ?_⟩
  · rw [State.paddedGroup_of_empty hzero]
    rfl
  · obtain ⟨hgroup, hlt⟩ := State.paddedGroup_of_pos ⟨hk, ha⟩ hpos
    rw [hgroup]
    exact ⟨BitVec.ofNat 5 _, Nat.mod_eq_of_lt hlt, rfl⟩

/-! ### The encoder's phase (spec/42_encode_commands.md R122) -/

/-- The encoder's residual alone decides whether its commands complete. -/
theorem send_encPuts_completes {s : State} (hm : s.mode = .ready) (he : s.EncoderLegal) (M : List Byte) :
    ∃ t, send (M.map fun b => encode (.encPut b)) s = .next t := by
  induction M generalizing s with
  | nil => exact ⟨s, rfl⟩
  | cons b M ih =>
    have hu := exec_encPut_of_legal (b := b) hm he
    obtain ⟨heu, -⟩ := exec_encPut_bits hm hu
    have hword := (execWord_encode (.encPut b) s).trans hu
    obtain ⟨t, ht⟩ := ih (execWord_keeps_frozen hm hword).mode heu
    exact ⟨t, send_cons.mpr ⟨_, hword, ht⟩⟩

theorem exec_encPut_length {s t : State} {b : Byte} (hm : s.mode = .ready) (hx : exec (.encPut b) s = .next t) :
    ∃ l, t.rsp = s.rsp ++ l ∧ l.length = if s.ecnt.toNat ≤ 1 then 1 else 2 := by
  obtain ⟨-, hlegal, -⟩ := (execEncPut_next hx).resolve_left fun h => h.left hm
  obtain ⟨het, gs, hrsp, hbits⟩ := exec_encPut_bits hm hx
  have hlen := congrArg List.length hbits
  simp only [List.length_append, length_bitsOf5, State.length_encoderBits, length_bitsMsb] at hlen
  have hs := hlegal.left
  have ht := het.left
  refine ⟨_, hrsp, ?_⟩
  rw [List.length_map]
  split <;> omega

theorem exec_encEnd_length {s t : State} (hm : s.mode = .ready) (hx : exec .encEnd s = .next t) :
    ∃ l, t.rsp = s.rsp ++ l ∧ l.length = if s.ecnt.toNat = 0 then 1 else 2 := by
  obtain ⟨-, hlegal, -⟩ := (execEncEnd_next hx).resolve_left fun h => h.left hm
  obtain ⟨-, gs, pad, hrsp, hpad, hbits⟩ := exec_encEnd_bits hm hx
  have hlen := congrArg List.length hbits
  simp only [List.length_append, length_bitsOf5, State.length_encoderBits, List.length_replicate] at hlen
  have hs := hlegal.left
  refine ⟨_, hrsp, ?_⟩
  rw [List.length_append, List.length_map, List.length_singleton]
  split <;> omega

/-- After the bytes of `M` from an idle lane, the groups hold all bits of `M` but the last fewer than five, which are held. -/
theorem send_encPuts_of_idle {M : List Byte} {s t : State} (hm : s.mode = .ready) (hidle : s.EncoderIdle)
    (hsend : send (M.map fun b => encode (.encPut b)) s = .next t) :
    ∃ gs : List Group, t.rsp = s.rsp ++ gs.map (symbolWord s.alpha) ∧ gs.length = 8 * M.length / 5 ∧
      t.ecnt.toNat = 8 * M.length % 5 ∧
      t.eacc.toNat = natOfBits ((bitsOf8 M).drop (8 * M.length - 8 * M.length % 5)) := by
  obtain ⟨het, gs, hrsp, hbits⟩ := send_encPuts hm hidle.encoderLegal hsend
  rw [hidle.encoderBits, List.nil_append] at hbits
  have hlen := congrArg List.length hbits
  rw [length_bitsOf8, List.length_append, length_bitsOf5, State.length_encoderBits] at hlen
  have hcnt := het.left
  have hgroups : (bitsOf5 gs).length = 8 * M.length - 8 * M.length % 5 := by rw [length_bitsOf5]; omega
  refine ⟨gs, hrsp, by omega, by omega, ?_⟩
  rw [← het.natOfBits, hbits, ← hgroups, List.drop_left]

/-- Settles O34: what is emitted and held follows from the bits, which are neither lost nor moved. -/
theorem encoderPhase : Obligations.EncoderPhase := by
  refine ⟨fun s M hm hidle => ?_, fun s t b => exec_encPut_length, fun s t => exec_encEnd_length⟩
  obtain ⟨t, ht⟩ := send_encPuts_completes hm hidle.encoderLegal M
  obtain ⟨gs, hrsp, hlen, hecnt, heacc⟩ := send_encPuts_of_idle hm hidle ht
  exact ⟨t, _, ht, hrsp, by rw [List.length_map, hlen], hecnt, heacc⟩

/-! ### The encoder transaction (spec/42_encode_commands.md R124) -/

theorem filter_eq_map_encode (p : Instr → Bool) (ws : List CmdWord) :
    (ws.filter fun w => (decodeWord w).any p) = ((ws.filterMap decodeWord).filter p).map encode := by
  induction ws with
  | nil => rfl
  | cons w ws ih =>
    cases hdec : decodeWord w with
    | none => simpa [hdec] using ih
    | some i =>
      have hw := encode_of_decodeWord hdec
      cases hp : p i <;> simp [hdec, hp, ih, hw]

/-- The encoder's answers to a stream are those to its encoder commands alone. -/
theorem send_encoderCommands {ws : List CmdWord} {s t : State} (hm : s.mode = .ready) (hsend : send ws s = .next t) :
    ∃ t' l, send ((encoderCommands ws).map encode) s = .next t' ∧ t.rsp = s.rsp ++ l ∧
      t'.rsp = s.rsp ++ encoderResponses l ∧ (t'.EncoderIdle → t.EncoderIdle) := by
  obtain ⟨t', l, ht', hrsp, hrsp', hview⟩ := encoderLane_independent.send_filter hm rfl hsend
  obtain ⟨-, -, heacc, hecnt⟩ := encoderLane_view_eq_iff.mp hview
  refine ⟨t', l, ?_, hrsp, hrsp', fun h => ⟨hecnt.symm.trans h.ecnt, heacc.symm.trans h.eacc⟩⟩
  rwa [encoderCommands, ← filter_eq_map_encode]

theorem map_symbolWord_groupsOf (A : Alphabet) (M : List Byte) :
    (groupsOf M).map (symbolWord A.codes) = (A.encode M).map fun c => 0x300 + c.setWidth 12 := by
  rw [Alphabet.encode, List.map_map]
  rfl

/-- Settles O36: the encoder commands alone are one encode call. -/
theorem encoderTransaction : Obligations.EncoderTransaction := by
  intro A s ws M hinv hm halpha hidle hcommands
  obtain ⟨t, ht⟩ := send_completes hinv ws
  obtain ⟨t', l, ht', hrsp, hrsp', hkeep⟩ := send_encoderCommands hm ht
  rw [hcommands] at ht'
  obtain ⟨hidle', hlog⟩ := send_encodeCall hm hidle ht'
  refine ⟨t, l, ht, hrsp, ?_, (encodedTokenShape A M).left, hkeep hidle'⟩
  rw [← map_symbolWord_groupsOf, ← halpha]
  exact List.append_cancel_left (hrsp'.symm.trans hlog)

end Sys2Proof.Machine

namespace Sys2Proof.Machine

/-! ### The block in `READY` with an alphabet (spec/20_memory.md R51) -/

/-- In `READY` with the alphabet `A`, meeting the invariants. -/
structure State.ReadyWith (s : State) (A : Alphabet) : Prop where
  inv : s.Inv
  mode : s.mode = .ready
  alpha : s.alpha = A.codes

theorem State.ReadyWith.of_send {A : Alphabet} {ws : List CmdWord} {s t : State} (h : s.ReadyWith A)
    (hsend : send ws s = .next t) : t.ReadyWith A where
  inv := send_keeps_inv h.inv hsend
  mode := (send_keeps_frozen h.mode hsend).mode
  alpha := (send_keeps_frozen h.mode hsend).alpha.trans h.alpha

theorem State.ReadyWith.of_execWord {A : Alphabet} {w : CmdWord} {s t : State} (h : s.ReadyWith A)
    (hx : execWord w s = .next t) : t.ReadyWith A :=
  h.of_send (send_singleton.mpr hx)

theorem State.ReadyWith.lookupRev {A : Alphabet} {s : State} (h : s.ReadyWith A) (c : Symbol) : s.lookupRev c = A.rev c :=
  ((blockLookupsAreFwdAndRev A s h.inv h.mode h.alpha).right c).left

/-! ### The decoder commands, as bits (spec/43_decode_commands.md R130, R132, R133) -/

/-- The `DBYTE` word of a byte (R71). -/
def byteWord (b : Byte) : RspWord := 0x500 + b.setWidth 12

theorem map_byteOf_word (gs : List Nat) :
    (gs.map byteOf).map Response.word = (gs.map (BitVec.ofNat 8)).map byteWord := by
  simp only [List.map_map]
  exact List.map_congr_left fun g _ => word_dbyte _

theorem exec_decPut_bits {A : Alphabet} {s t : State} {c : Symbol} {i : Group} (h : s.ReadyWith A) (hd : s.derr = false)
    (hc : A.rev c = some i) (hx : exec (.decPut c) s = .next t) :
    t.derr = false ∧ ∃ bs : List Byte, t.rsp = s.rsp ++ bs.map byteWord ∧
      s.decoderBits ++ bitsMsb i = bitsOf8 bs ++ t.decoderBits := by
  rw [exec_decPut_of_found h.mode hd ((h.lookupRev c).trans hc) h.inv.decoder_legal, Host.Outcome.next.injEq] at hx
  subst hx
  obtain ⟨hk, ha⟩ := State.decoderBuffer_legal h.inv.decoder_legal i
  refine ⟨hd, _, by rw [State.emits_rsp, map_byteOf_word]; rfl, ?_⟩
  exact (s.decoderBuffer_bits i).trans (congrArg _ (s.setDecoder_decoderBits hk ha).symm)

theorem exec_decPut_foreign {A : Alphabet} {s : State} {c : Symbol} (h : s.ReadyWith A) (hd : s.derr = false)
    (hc : A.rev c = none) : exec (.decPut c) s = .next s.setDerr :=
  exec_decPut_of_foreign h.mode hd ((h.lookupRev c).trans hc)

/-- R133: from a foreign symbol on the symbols of the token are ignored. -/
theorem send_decPuts_of_derr {T : List Symbol} {s t : State} (hm : s.mode = .ready) (hd : s.derr = true)
    (hsend : send (T.map fun c => encode (.decPut c)) s = .next t) : t = s := by
  induction T with
  | nil => simpa using hsend.symm
  | cons c T ih =>
    obtain ⟨u, hu, hrest⟩ := send_cons.mp hsend
    rw [execWord_encode, exec_decPut_of_derr hm hd, Host.Outcome.next.injEq] at hu
    subst hu
    exact ih hrest

/-- The symbols of a token: `I` are the indices of all of them, or of those before the first foreign one. The bits held before and
those of `I` are the bits of the bytes and those held after. -/
theorem send_decPuts {A : Alphabet} {T : List Symbol} {s t : State} (h : s.ReadyWith A) (hd : s.derr = false)
    (hsend : send (T.map fun c => encode (.decPut c)) s = .next t) :
    ∃ (I : List Group) (bs : List Byte), t.rsp = s.rsp ++ bs.map byteWord ∧
      s.decoderBits ++ bitsOf5 I = bitsOf8 bs ++ t.decoderBits ∧
      (t.derr = false ∧ T = I.map A.fwd ∨ t.derr = true ∧ ∃ c after, T = I.map A.fwd ++ c :: after ∧ A.rev c = none) := by
  induction T generalizing s with
  | nil =>
    obtain rfl : s = t := by simpa using hsend
    exact ⟨[], [], by simp, by simp [bitsOf8, bitsOf5], .inl ⟨hd, rfl⟩⟩
  | cons c T ih =>
    obtain ⟨u, hu, hrest⟩ := send_cons.mp hsend
    have hready := h.of_execWord hu
    rw [execWord_encode] at hu
    cases hc : A.rev c with
    | none =>
      rw [exec_decPut_foreign h hd hc, Host.Outcome.next.injEq] at hu
      subst hu
      obtain rfl := send_decPuts_of_derr (s := s.setDerr) h.mode rfl hrest
      exact ⟨[], [], by simp, by simp [bitsOf8, bitsOf5, State.decoderBits], .inr ⟨rfl, c, T, rfl, hc⟩⟩
    | some i =>
      obtain ⟨hdu, bs, hrsp, hbits⟩ := exec_decPut_bits h hd hc hu
      obtain ⟨I, bs', hrsp', hbits', hend⟩ := ih hready hdu hrest
      obtain rfl := A.rev_eq_some_iff.mp hc
      refine ⟨i :: I, bs ++ bs', by rw [hrsp', hrsp, List.map_append, List.append_assoc], ?_, ?_⟩
      · calc s.decoderBits ++ (bitsMsb i ++ bitsOf5 I) = bitsOf8 bs ++ (u.decoderBits ++ bitsOf5 I) := by
              rw [← List.append_assoc, hbits, List.append_assoc]
          _ = (bitsOf8 bs ++ bitsOf8 bs') ++ t.decoderBits := by rw [hbits', List.append_assoc]
          _ = bitsOf8 (bs ++ bs') ++ t.decoderBits := by rw [bitsOf8, bitsOf8, bitsOf8, List.flatMap_append]
      · obtain ⟨hdt, rfl⟩ | ⟨hdt, x, after, rfl, hx⟩ := hend
        · exact .inl ⟨hdt, rfl⟩
        · exact .inr ⟨hdt, x, after, rfl, hx⟩

/-- The bytes of a list of indices are known from their bits: fewer than eight are left over. -/
theorem eq_bytesOf {I : List Group} {bs : List Byte} {r : List Bool} (hr : r.length < 8) (h : bitsOf5 I = bitsOf8 bs ++ r) :
    bs = bytesOf I := by
  have hsplit : bitsOf8 bs ++ r = bitsOf8 (bytesOf I) ++ slackBits I := by
    rw [bitsOf8_bytesOf, slackBits, List.take_append_drop, h]
  have hslack : (slackBits I).length < 8 := by
    have hbound := messageLength_bounds I.length
    rw [length_slackBits]
    omega
  exact (flatMap_bitsMsb_append_inj hsplit hr hslack).left

theorem words_decodeCall (T : List Symbol) :
    (Pseudo.decode T).words = T.map (fun c => encode (.decPut c)) ++ [encode .decEnd] :=
  map_encode_expansion .decPut T .decEnd

/-- R134 for the decoder's words alone: one decode call. `I` are the indices of the token, or of its symbols before the first
foreign one. -/
theorem send_decodeCall {A : Alphabet} {T : List Symbol} {s t : State} (h : s.ReadyWith A) (hidle : s.DecoderIdle)
    (hsend : send (Pseudo.decode T).words s = .next t) :
    t.DecoderIdle ∧ ∃ (I : List Group) (w : RspWord), t.rsp = s.rsp ++ ((bytesOf I).map byteWord ++ [w]) ∧
      (w = 0x600 ∧ T = I.map A.fwd ∨ w = 0x601 ∧ ∃ c after, T = I.map A.fwd ++ c :: after ∧ A.rev c = none) := by
  rw [words_decodeCall, send_append] at hsend
  obtain ⟨u, hu, hend⟩ := hsend
  obtain ⟨I, bs, hrsp, hbits, hderr⟩ := send_decPuts h hidle.derr hu
  rw [hidle.decoderBits, List.nil_append] at hbits
  obtain rfl := eq_bytesOf (by rw [State.length_decoderBits]; exact u.dcnt.isLt) hbits
  rw [send_singleton, execWord_encode, exec_decEnd_of_ready (h.of_send hu).mode, Host.Outcome.next.injEq] at hend
  subst hend
  refine ⟨⟨rfl, rfl, rfl⟩, I, _, by rw [State.emits_rsp, State.clearDecoder_rsp, hrsp, List.append_assoc]; rfl, ?_⟩
  obtain ⟨hd, hT⟩ | ⟨hd, hT⟩ := hderr
  · exact .inl ⟨by rw [hd]; rfl, hT⟩
  · exact .inr ⟨by rw [hd]; rfl, hT⟩

end Sys2Proof.Machine

namespace Sys2Proof.Machine

/-! ### The log observed (spec/43_decode_commands.md R133, 70_reset_and_hazards.md R183) -/

/-- The words of an open transaction close nothing. -/
theorem closedTransactions_open {item close : BitVec 4} {l : List RspWord} (h : ∀ w ∈ l, kindField w = item)
    (p : List (BitVec 8)) : closedTransactions item close p l = [] := by
  induction l generalizing p with
  | nil => rfl
  | cons w l ih =>
    obtain ⟨hw, hl⟩ := List.forall_mem_cons.mp h
    rw [closedTransactions, if_pos hw, ih hl]

theorem encodeOutcomes_open (alpha : Vector Symbol 32) (gs : List Group) : encodeOutcomes (gs.map (symbolWord alpha)) = [] := by
  have hkind : ∀ w ∈ gs.map (symbolWord alpha), kindField w = 0x3 := by
    simp only [List.forall_mem_map, symbolWord, ← word_esym, kindField_word]
    exact fun _ _ => rfl
  rw [encodeOutcomes, closedTransactions_open hkind, List.map_nil]

theorem decodeOutcomes_open (bs : List Byte) : decodeOutcomes (bs.map byteWord) = [] := by
  have hkind : ∀ w ∈ bs.map byteWord, kindField w = 0x5 := by
    simp only [List.forall_mem_map, byteWord, ← word_dbyte, kindField_word]
    exact fun _ _ => rfl
  rw [decodeOutcomes, closedTransactions_open hkind, List.map_nil]

theorem kindField_ne_of_speaks {w : RspWord} (h : encoderSpeaks w = true ∨ decoderSpeaks w = true) : kindField w ≠ 0x2 := by
  intro hkind
  simp [encoderSpeaks, decoderSpeaks, hkind] at h

/-- In `READY` no `CDONE` is answered. -/
theorem send_ready_emits {ws : List CmdWord} {s t : State} (hm : s.mode = .ready) (hsend : send ws s = .next t) :
    ∃ l, t.rsp = s.rsp ++ l ∧ ∀ w ∈ l, kindField w ≠ 0x2 := by
  induction ws generalizing s with
  | nil =>
    obtain rfl : s = t := by simpa using hsend
    exact ⟨[], by simp, nofun⟩
  | cons w ws ih =>
    obtain ⟨u, hu, hrest⟩ := send_cons.mp hsend
    obtain ⟨l', hrsp', hl'⟩ := ih (execWord_keeps_frozen hm hu).mode hrest
    have hword : ∃ l, u.rsp = s.rsp ++ l ∧ ∀ w ∈ l, kindField w ≠ 0x2 := by
      obtain ⟨i, -, hi, hx⟩ | ⟨-, -, rfl⟩ := execWord_ready hm hu
      · obtain ⟨l, hrsp, hspeaks⟩ := exec_lane_speaks hm hi hx
        refine ⟨l, hrsp, fun w hw => kindField_ne_of_speaks ?_⟩
        obtain ⟨hencoder, hdecoder⟩ := hspeaks w hw
        rwa [hencoder, hdecoder]
      · exact ⟨_, rfl, by decide⟩
    obtain ⟨l, hrsp, hl⟩ := hword
    exact ⟨l ++ l', by rw [hrsp', hrsp, List.append_assoc], List.forall_mem_append.mpr ⟨hl, hl'⟩⟩

end Sys2Proof.Machine

namespace Sys2Proof.Machine

/-! ### Sequences of calls (spec/42_encode_commands.md R124, 43_decode_commands.md R133, R134, 90_conflicts.md C2) -/

/-- When one call from a state of `P` is observed as its result and leads to a state of `P`, so is every list of calls. -/
theorem send_calls {α β : Type} {P : State → Prop} {words : α → List CmdWord} {outcomes : List RspWord → List β} {result : α → β}
    (hcall : ∀ {a : α} {s t : State}, P s → send (words a) s = .next t →
      P t ∧ ∃ l, t.rsp = s.rsp ++ l ∧ ∀ log, outcomes (l ++ log) = result a :: outcomes log)
    {calls : List α} {s t : State} (hs : P s) (hsend : send (calls.flatMap words) s = .next t) :
    P t ∧ ∃ l, t.rsp = s.rsp ++ l ∧ ∀ log, outcomes (l ++ log) = calls.map result ++ outcomes log := by
  induction calls generalizing s with
  | nil =>
    obtain rfl : s = t := by simpa using hsend
    exact ⟨hs, [], by simp, by simp⟩
  | cons a calls ih =>
    rw [List.flatMap_cons, send_append] at hsend
    obtain ⟨u, hu, hrest⟩ := hsend
    obtain ⟨hPu, l, hrsp, hl⟩ := hcall hs hu
    obtain ⟨hPt, l', hrsp', hl'⟩ := ih hPu hrest
    refine ⟨hPt, l ++ l', by rw [hrsp', hrsp, List.append_assoc], fun log => ?_⟩
    rw [List.append_assoc, hl, hl', List.map_cons, List.cons_append]

theorem encodeCall_observed {A : Alphabet} {M : List Byte} {s t : State} (hs : s.ReadyWith A ∧ s.EncoderIdle)
    (hsend : send (Pseudo.encode M).words s = .next t) :
    (t.ReadyWith A ∧ t.EncoderIdle) ∧
      ∃ l, t.rsp = s.rsp ++ l ∧ ∀ log, encodeOutcomes (l ++ log) = A.encode M :: encodeOutcomes log := by
  obtain ⟨h, hidle⟩ := hs
  obtain ⟨hidle', hrsp⟩ := send_encodeCall h.mode hidle hsend
  refine ⟨⟨h.of_send hsend, hidle'⟩, _, hrsp, fun log => ?_⟩
  rw [h.alpha, map_symbolWord_groupsOf, List.append_assoc]
  exact encodeOutcomes_token _ _

/-- A failed decode call is observed as the error alone, its bytes void. -/
theorem decodeCall_observed {A : Alphabet} {T : List Symbol} {s t : State} (hs : s.ReadyWith A ∧ s.DecoderIdle)
    (hsend : send (Pseudo.decode T).words s = .next t) :
    (t.ReadyWith A ∧ t.DecoderIdle) ∧
      ∃ l, t.rsp = s.rsp ++ l ∧ ∀ log, decodeOutcomes (l ++ log) = A.decode T :: decodeOutcomes log := by
  obtain ⟨h, hidle⟩ := hs
  obtain ⟨hidle', I, w, hrsp, hend⟩ := send_decodeCall h hidle hsend
  refine ⟨⟨h.of_send hsend, hidle'⟩, _, hrsp, fun log => ?_⟩
  rw [List.append_assoc]
  obtain ⟨rfl, rfl⟩ | ⟨rfl, c, after, rfl, hc⟩ := hend
  · rw [A.decode_map_fwd]
    exact decodeOutcomes_ok _ _
  · have hfails : A.decode (I.map A.fwd ++ c :: after) = .symbolNotFound :=
      A.decode_eq_symbolNotFound_iff.mpr ⟨c, by simp, A.rev_eq_none_iff_notMem.mp hc⟩
    rw [hfails]
    exact decodeOutcomes_error _ _

/-- The decoder's answers to a stream are those to its decoder commands alone. -/
theorem send_decoderCommands {ws : List CmdWord} {s t : State} (hm : s.mode = .ready) (hsend : send ws s = .next t) :
    ∃ t' l, send ((decoderCommands ws).map encode) s = .next t' ∧ t.rsp = s.rsp ++ l ∧
      t'.rsp = s.rsp ++ decoderResponses l ∧ decoderLane.view t' = decoderLane.view t := by
  obtain ⟨t', l, ht', hrsp, hrsp', hview⟩ := decoderLane_independent.send_filter hm rfl hsend
  refine ⟨t', l, ?_, hrsp, hrsp', hview⟩
  rwa [decoderCommands, ← filter_eq_map_encode]

/-- The words of a list of calls and then of the operands of an open one. -/
theorem map_encode_calls {α : Type} (f : α → Pseudo) (calls : List α) (put : BitVec 8 → Instr) (ops : List (BitVec 8)) :
    ((calls.flatMap fun a => (f a).expand) ++ ops.map put).map encode =
      (calls.flatMap fun a => (f a).words) ++ ops.map fun d => encode (put d) := by
  rw [List.map_append, List.map_flatMap, List.map_map]
  rfl

/-- The encoder's side of O59: the encoder's answers are observed as the results of the calls. -/
theorem encodeOutcomes_of_calls {A : Alphabet} {s t : State} {ws : List CmdWord} {Ms : List (List Byte)} {M : List Byte}
    (h : s.ReadyWith A) (hidle : s.EncoderIdle)
    (hcommands : encoderCommands ws = (Ms.flatMap fun m => (Pseudo.encode m).expand) ++ M.map .encPut)
    (hsend : send ws s = .next t) : ∃ l, t.rsp = s.rsp ++ l ∧ encodeOutcomes (encoderResponses l) = Ms.map A.encode := by
  obtain ⟨t', l, ht', hrsp, hrsp', -⟩ := send_encoderCommands h.mode hsend
  rw [hcommands, map_encode_calls Pseudo.encode, send_append] at ht'
  obtain ⟨u, hu, hopen⟩ := ht'
  obtain ⟨⟨hready, hidle'⟩, calls, hcalls, hobserved⟩ := send_calls encodeCall_observed ⟨h, hidle⟩ hu
  obtain ⟨-, gs, hrest, -⟩ := send_encPuts hready.mode hidle'.encoderLegal hopen
  rw [hrest, hcalls, List.append_assoc] at hrsp'
  refine ⟨l, hrsp, ?_⟩
  rw [← List.append_cancel_left hrsp', hobserved, encodeOutcomes_open, List.append_nil]

/-- The decoder's side of O59. -/
theorem decodeOutcomes_of_calls {A : Alphabet} {s t : State} {ws : List CmdWord} {Ts : List (List Symbol)} {T : List Symbol}
    (h : s.ReadyWith A) (hidle : s.DecoderIdle)
    (hcommands : decoderCommands ws = (Ts.flatMap fun k => (Pseudo.decode k).expand) ++ T.map .decPut)
    (hsend : send ws s = .next t) : ∃ l, t.rsp = s.rsp ++ l ∧ decodeOutcomes (decoderResponses l) = Ts.map A.decode := by
  obtain ⟨t', l, ht', hrsp, hrsp', -⟩ := send_decoderCommands h.mode hsend
  rw [hcommands, map_encode_calls Pseudo.decode, send_append] at ht'
  obtain ⟨u, hu, hopen⟩ := ht'
  obtain ⟨⟨hready, hidle'⟩, calls, hcalls, hobserved⟩ := send_calls decodeCall_observed ⟨h, hidle⟩ hu
  obtain ⟨-, bs, hrest, -⟩ := send_decPuts hready hidle'.derr hopen
  rw [hrest, hcalls, List.append_assoc] at hrsp'
  refine ⟨l, hrsp, ?_⟩
  rw [← List.append_cancel_left hrsp', hobserved, decodeOutcomes_open, List.append_nil]

/-- Settles O59: each lane's answers are those to its own calls, and an observer of the log sees only them. -/
theorem callsAreObservedAsEncodeAndDecode : Obligations.CallsAreObservedAsEncodeAndDecode := by
  intro A s ws Ms Ts M T hinv hm halpha hencoder hdecoder hencode hdecode
  obtain ⟨t, ht⟩ := send_completes hinv ws
  have h : s.ReadyWith A := ⟨hinv, hm, halpha⟩
  obtain ⟨l, hrsp, hkinds⟩ := send_ready_emits hm ht
  obtain ⟨l₁, hrsp₁, houtcomes₁⟩ := encodeOutcomes_of_calls h hencoder hencode ht
  obtain ⟨l₂, hrsp₂, houtcomes₂⟩ := decodeOutcomes_of_calls h hdecoder hdecode ht
  obtain rfl : l = l₁ := List.append_cancel_left (hrsp.symm.trans hrsp₁)
  obtain rfl : l = l₂ := List.append_cancel_left (hrsp.symm.trans hrsp₂)
  refine ⟨t, l, ht, hrsp, ?_, ?_⟩
  · rw [← houtcomes₁, encodeOutcomes, closedTransactions_filter hkinds]
    rfl
  · rw [← houtcomes₂, decodeOutcomes, closedTransactions_filter hkinds]
    rfl

end Sys2Proof.Machine

namespace Sys2Proof.Machine

/-! ### The decoder lane beside the other words (spec/43_decode_commands.md R132, R135) -/

/-- Settles O42: the run on the decoder words alone keeps step with the whole run, word by word. -/
theorem decoderLaneIsIndependent : Obligations.DecoderLaneIsIndependent := by
  intro s ws hinv hm
  obtain ⟨t, ht⟩ := send_completes hinv ws
  obtain ⟨t', l, ht', hrsp, hrsp', hview⟩ := decoderLane_independent.send_filter hm rfl ht
  obtain ⟨-, -, hdacc, hdcnt, hderr⟩ := decoderLane_view_eq_iff.mp hview
  exact ⟨t, t', l, _, ht, hrsp, ht', hrsp', rfl, hdacc.symm, hdcnt.symm, hderr.symm⟩

/-- Idleness is read off the decoder lane's own elements. -/
theorem State.DecoderIdle.of_view {s t : State} (h : s.DecoderIdle) (hview : decoderLane.view s = decoderLane.view t) :
    t.DecoderIdle := by
  obtain ⟨-, -, hdacc, hdcnt, hderr⟩ := decoderLane_view_eq_iff.mp hview
  exact ⟨hdcnt.symm.trans h.dcnt, hdacc.symm.trans h.dacc, hderr.symm.trans h.derr⟩

/-- Settles O38: the status is the flag's, and the return from the error empties the lane whether or not there was one. -/
theorem decEndReportsAndClears : Obligations.DecEndReportsAndClears := by
  refine fun s => ⟨fun hm => exec_lane_of_not_ready (.inr rfl) hm, fun hm hd => ?_, fun hm hd => ?_⟩
  · rw [exec_decEnd_of_ready hm, hd]
    rfl
  · rw [exec_decEnd_of_ready hm, hd]
    rfl

end Sys2Proof.Machine

namespace Sys2Proof.Machine

/-! ### The case table of `DEC.PUT` (spec/43_decode_commands.md R130) -/

/-- The eight rows of the table. -/
theorem dcnt_cases (k : BitVec 3) : k = 0 ∨ k = 1 ∨ k = 2 ∨ k = 3 ∨ k = 4 ∨ k = 5 ∨ k = 6 ∨ k = 7 := by
  simp only [← BitVec.toNat_inj, BitVec.reduceToNat]
  omega

/-- Every row leaves a legal residual (R25). -/
theorem decPutRow_legal (k : BitVec 3) (d : BitVec 7) (i : Group) :
    (decPutRow k d i).2.1.toNat < 2 ^ (decPutRow k d i).2.2.toNat := by
  obtain rfl | rfl | rfl | rfl | rfl | rfl | rfl | rfl := dcnt_cases k
  · exact toNat_setWidth_lt ..
  · exact toNat_setWidth_lt ..
  · exact BitVec.isLt _
  · exact Nat.zero_lt_one
  · exact toNat_setWidth_lt ..
  · exact toNat_setWidth_lt ..
  · exact toNat_setWidth_lt ..
  · exact toNat_setWidth_lt ..

/-- Narrowing a register to the bits it holds. -/
theorem lowBits_setWidth {w m : Nat} (hw : w ≤ m) (v : BitVec w) : lowBits w (v.setWidth m).toNat = bitsMsb v := by
  rw [lowBits_toNat, BitVec.setWidth_setWidth_of_le _ hw, BitVec.setWidth_eq]

theorem lowBits_eq_extract {w : Nat} (n : Nat) (v : BitVec w) : lowBits n v.toNat = bitsMsb (v.extractLsb' 0 n) := rfl

/-- A value's bits, cut above its low `m`. -/
theorem bitsMsb_cut {w m : Nat} (hm : m ≤ w) (v : BitVec w) :
    bitsMsb v = bitsMsb (v.extractLsb' m (w - m)) ++ bitsMsb (v.extractLsb' 0 m) := by
  obtain ⟨k, rfl⟩ := Nat.exists_eq_add_of_le' hm
  rw [Nat.add_sub_cancel, bitsMsb_eq_lowBits, lowBits_add]
  rfl

/-- The rows that complete a byte with the index's high bits and hold its low `m`. -/
theorem lowBits_append_index_cut {m : Nat} (hm : m ≤ 5) (n : Nat) (d : BitVec 7) (i : Group) :
    lowBits n d.toNat ++ bitsMsb i =
      bitsMsb (d.extractLsb' 0 n ++ i.extractLsb' m (5 - m)) ++ lowBits m ((i.extractLsb' 0 m).setWidth 7).toNat := by
  rw [bitsMsb_append, lowBits_setWidth (by omega), lowBits_eq_extract, List.append_assoc, ← bitsMsb_cut hm]

theorem lowBits_append_index (n : Nat) (d : BitVec 7) (i : Group) :
    lowBits n d.toNat ++ bitsMsb i = bitsMsb (d.extractLsb' 0 n ++ i) := by
  rw [bitsMsb_append, lowBits_eq_extract]

/-- Every row keeps the bits in order: those held and the index's are those of the byte and those held after. -/
theorem decPutRow_bits (k : BitVec 3) (d : BitVec 7) (i : Group) :
    lowBits k.toNat d.toNat ++ bitsMsb i =
      bitsOf8 (decPutRow k d i).1 ++ lowBits (decPutRow k d i).2.2.toNat (decPutRow k d i).2.1.toNat := by
  obtain rfl | rfl | rfl | rfl | rfl | rfl | rfl | rfl := dcnt_cases k
  · exact (lowBits_setWidth (by decide) i).symm
  · exact (lowBits_append_index 1 d i).trans (lowBits_setWidth (by decide) _).symm
  · exact (lowBits_append_index 2 d i).trans (bitsMsb_eq_lowBits _)
  · exact (lowBits_append_index 3 d i).trans (List.append_nil _).symm
  · exact lowBits_append_index_cut (m := 1) (by decide) 4 d i
  · exact lowBits_append_index_cut (m := 2) (by decide) 5 d i
  · exact lowBits_append_index_cut (m := 3) (by decide) 6 d i
  · exact lowBits_append_index_cut (m := 4) (by decide) 7 d i

/-- The row and the buffer hold the same bits, which are cut into bytes in one way only. -/
theorem State.decoderBuffer_eq_decPutRow {s : State} (hl : s.DecoderLegal) (i : Group) :
    (s.decoderBuffer i).groups.map (BitVec.ofNat 8) = (decPutRow s.dcnt s.dacc i).1 ∧
      (s.decoderBuffer i).acc = (decPutRow s.dcnt s.dacc i).2.1.toNat ∧
      (s.decoderBuffer i).cnt = (decPutRow s.dcnt s.dacc i).2.2.toNat := by
  have hlegal := decPutRow_legal s.dcnt s.dacc i
  obtain ⟨hcnt, hacc⟩ := State.decoderBuffer_legal hl i
  obtain ⟨hbytes, hbits⟩ := flatMap_bitsMsb_append_inj ((s.decoderBuffer_bits i).symm.trans (decPutRow_bits ..))
    (by rwa [length_lowBits]) (by rw [length_lowBits]; exact BitVec.isLt _)
  refine ⟨hbytes, ?_, by simpa using congrArg List.length hbits⟩
  simpa only [natOfBits_lowBits, Nat.mod_eq_of_lt hacc, Nat.mod_eq_of_lt hlegal] using congrArg natOfBits hbits

theorem State.RidxInverse.lookupRev_of_found {s : State} (h : s.RidxInverse) {c : Symbol} {i : Group} (hi : s.readFwd i = c) :
    s.lookupRev c = some i :=
  lookupRev_eq_some.mpr ((h.found c i).mpr hi)

theorem State.RidxInverse.lookupRev_of_foreign {s : State} (h : s.RidxInverse) {c : Symbol} (hc : ∀ i, s.readFwd i ≠ c) :
    s.lookupRev c = none := by
  rw [State.lookupRev, h.foreign c hc]
  rfl

/-- Settles O37: the look-up decides the case, and a found symbol's buffer is the table's row. -/
theorem decPutFollowsTheCaseTable : Obligations.DecPutFollowsTheCaseTable := by
  refine fun c s => ⟨fun hm => exec_lane_of_not_ready (.inr rfl) hm, exec_decPut_of_derr,
    fun hm hd hinverse hl => ⟨fun hc => exec_decPut_of_foreign hm hd (hinverse.lookupRev_of_foreign hc), fun i hi => ?_⟩⟩
  obtain ⟨hbytes, hacc, hcnt⟩ := State.decoderBuffer_eq_decPutRow hl i
  rw [exec_decPut_of_found hm hd (hinverse.lookupRev_of_found hi) hl, State.emits_eq, map_byteOf_word, hbytes, hacc, hcnt,
    State.setDecoder, BitVec.ofNat_toNat, BitVec.ofNat_toNat, BitVec.setWidth_eq, BitVec.setWidth_eq]
  rfl

end Sys2Proof.Machine

namespace Sys2Proof.Machine

/-! ### Symbols of the alphabet (spec/43_decode_commands.md R131) -/

theorem Alphabet.decode_of_foreign (A : Alphabet) (before after : List Symbol) {c : Symbol} (hc : A.rev c = none) :
    A.decode (before ++ c :: after) = .symbolNotFound :=
  A.decode_eq_symbolNotFound_iff.mpr ⟨c, by simp, A.rev_eq_none_iff_notMem.mp hc⟩

/-- The symbols of the indices `I`, all found: no bit of `I` is lost or moved. -/
theorem send_decPuts_of_indices {A : Alphabet} {I : List Group} {s t : State} (h : s.ReadyWith A) (hd : s.derr = false)
    (hsend : send ((I.map A.fwd).map fun c => encode (.decPut c)) s = .next t) :
    t.derr = false ∧ ∃ bs : List Byte, t.rsp = s.rsp ++ bs.map byteWord ∧
      s.decoderBits ++ bitsOf5 I = bitsOf8 bs ++ t.decoderBits := by
  obtain ⟨J, bs, hrsp, hbits, ⟨hdt, hT⟩ | ⟨-, c, after, hT, hc⟩⟩ := send_decPuts h hd hsend
  · obtain rfl := List.map_injective_iff.mpr A.fwd_injective hT
    exact ⟨hdt, bs, hrsp, hbits⟩
  · have hfails := A.decode_of_foreign (J.map A.fwd) after hc
    rw [← hT, A.decode_map_fwd] at hfails
    cases hfails

/-- From an idle lane the bytes are the whole bytes of `I`, and the bits held are its slack. -/
theorem send_decPuts_of_idle {A : Alphabet} {I : List Group} {s t : State} (h : s.ReadyWith A) (hidle : s.DecoderIdle)
    (hsend : send ((I.map A.fwd).map fun c => encode (.decPut c)) s = .next t) :
    t.derr = false ∧ t.rsp = s.rsp ++ (bytesOf I).map byteWord ∧ t.decoderBits = slackBits I := by
  obtain ⟨hdt, bs, hrsp, hbits⟩ := send_decPuts_of_indices h hidle.derr hsend
  rw [hidle.decoderBits, List.nil_append] at hbits
  obtain rfl := eq_bytesOf (by rw [State.length_decoderBits]; exact t.dcnt.isLt) hbits
  rw [bitsOf8_bytesOf] at hbits
  exact ⟨hdt, hrsp, (List.append_cancel_left ((take_append_slackBits I).trans hbits)).symm⟩

theorem State.DecoderLegal.natOfBits {s : State} (h : s.DecoderLegal) : natOfBits s.decoderBits = s.dacc.toNat := by
  rw [State.decoderBits, natOfBits_lowBits, Nat.mod_eq_of_lt h]

/-- Settles O39: what is held is the slack of the indices, and what is emitted are their whole bytes. -/
theorem decoderPhase : Obligations.DecoderPhase := by
  refine ⟨fun A s T I hinv hm halpha hidle hI => ?_, fun i s t hi => responsesOfOneStep.right i s t (.inl hi)⟩
  obtain rfl := A.mapM_rev_eq_some_iff.mp hI
  obtain ⟨t, ht⟩ := send_completes hinv ((I.map A.fwd).map fun c => encode (.decPut c))
  have h : s.ReadyWith A := ⟨hinv, hm, halpha⟩
  obtain ⟨hderr, hrsp, hbits⟩ := send_decPuts_of_idle h hidle ht
  have hslack : 8 * messageLength I.length = 5 * I.length - 5 * I.length % 8 := by rw [messageLength]; omega
  have hdcnt : t.dcnt.toNat = 5 * I.length - 8 * messageLength I.length := by
    rw [← State.length_decoderBits, hbits, length_slackBits]
  refine ⟨t, _, ht, hrsp, ?_, ?_, hderr, ?_⟩
  · rw [List.length_map, length_bytesOf, List.length_map, messageLength]
  · rw [List.length_map]
    omega
  · rw [← (h.of_send ht).inv.decoder_legal.natOfBits, hbits, slackBits, List.length_map, hslack]

end Sys2Proof.Machine

namespace Sys2Proof.Machine

/-! ### From a foreign symbol on (spec/43_decode_commands.md R133, 60_exceptions.md R141) -/

/-- Without a `DEC.END` the decoder commands of a stream are symbols only. -/
theorem exists_decoderCommands_eq {ws : List CmdWord} (h : ∀ w ∈ ws, decodeWord w ≠ some .decEnd) :
    ∃ T : List Symbol, decoderCommands ws = T.map .decPut := by
  suffices hputs : ∀ i ∈ decoderCommands ws, i ∈ Set.range Instr.decPut by
    obtain ⟨T, hT⟩ := (Set.range_list_map Instr.decPut).ge hputs
    exact ⟨T, hT.symm⟩
  intro i hi
  obtain ⟨hmem, hdecoder⟩ := List.mem_filter.mp hi
  obtain ⟨w, hw, hdec⟩ := List.mem_filterMap.mp hmem
  cases i with
  | decPut c => exact ⟨c, rfl⟩
  | decEnd => exact absurd hdec (h w hw)
  | cfgSym c => cases hdecoder
  | cfgCommit => cases hdecoder
  | encPut b => cases hdecoder
  | encEnd => cases hdecoder

/-- Settles O40: the decoder commands alone are ignored symbols, and the other words leave the lane as it is. -/
theorem noBytesAfterAForeignSymbol : Obligations.NoBytesAfterAForeignSymbol := by
  intro s ws hinv hm hd hwords
  obtain ⟨t, ht⟩ := send_completes hinv ws
  obtain ⟨t', l, ht', hrsp, hrsp', hview⟩ := send_decoderCommands hm ht
  obtain ⟨T, hT⟩ := exists_decoderCommands_eq hwords
  rw [hT, List.map_map] at ht'
  obtain rfl : t' = s := send_decPuts_of_derr hm hd ht'
  obtain ⟨-, -, hdacc, hdcnt, hderr⟩ := decoderLane_view_eq_iff.mp hview
  exact ⟨t, l, ht, hrsp, List.self_eq_append_right.mp hrsp', hderr.symm.trans hd, hdacc.symm, hdcnt.symm⟩

/-- The rest of a failed decode call: the error alone. -/
theorem send_decodeCall_of_derr {T : List Symbol} {s t : State} (hm : s.mode = .ready) (hd : s.derr = true)
    (hsend : send (Pseudo.decode T).words s = .next t) : t.rsp = s.rsp ++ [0x601] := by
  rw [words_decodeCall, send_append] at hsend
  obtain ⟨u, hu, hend⟩ := hsend
  obtain rfl := send_decPuts_of_derr hm hd hu
  rw [send_singleton, execWord_encode, exec_decEnd_of_ready hm, hd, Host.Outcome.next.injEq] at hend
  subst hend
  rfl

end Sys2Proof.Machine

namespace Sys2Proof.Machine

/-! ### The decoder transaction (spec/43_decode_commands.md R133, R134) -/

/-- Settles O41: the decoder commands alone are one decode call. -/
theorem decoderTransaction : Obligations.DecoderTransaction := by
  intro A s ws T hinv hm halpha hidle hcommands
  obtain ⟨t, ht⟩ := send_completes hinv ws
  obtain ⟨t', l, ht', hrsp, hrsp', hview⟩ := send_decoderCommands hm ht
  rw [hcommands] at ht'
  obtain ⟨hidle', I, w, hlog, hend⟩ := send_decodeCall ⟨hinv, hm, halpha⟩ hidle ht'
  have hresponses := List.append_cancel_left (hrsp'.symm.trans hlog)
  refine ⟨t, l, ht, hrsp, hidle'.of_view hview, ?_⟩
  obtain ⟨rfl, rfl⟩ | ⟨rfl, c, after, rfl, hc⟩ := hend
  · rw [A.decode_map_fwd]
    exact ⟨by rw [length_bytesOf, List.length_map, messageLength], hresponses⟩
  · rw [A.decode_of_foreign _ _ hc]
    refine ⟨I.length, c, bytesOf I, by simp, A.rev_eq_none_iff_notMem.mp hc, ?_, by rw [length_bytesOf, messageLength],
      hresponses⟩
    rw [← A.decode_map_fwd, List.take_left' (List.length_map _)]

theorem decodeOutcomes_decoderResponses {l : List RspWord} (h : ∀ w ∈ l, kindField w ≠ 0x2) :
    decodeOutcomes (decoderResponses l) = decodeOutcomes l := by
  rw [decodeOutcomes, decodeOutcomes, closedTransactions_filter h]
  rfl

/-- The symbols of the alphabet at the start of a token, whatever is interleaved. -/
theorem send_found_symbols {A : Alphabet} {I : List Group} {ws : List CmdWord} {s t : State} (h : s.ReadyWith A)
    (hidle : s.DecoderIdle) (hcommands : decoderCommands ws = (I.map A.fwd).map .decPut) (hsend : send ws s = .next t) :
    t.derr = false ∧ ∃ l, t.rsp = s.rsp ++ l ∧ decoderResponses l = (bytesOf I).map byteWord := by
  obtain ⟨t', l, ht', hrsp, hrsp', hview⟩ := send_decoderCommands h.mode hsend
  rw [hcommands, List.map_map] at ht'
  obtain ⟨hd, hlog, -⟩ := send_decPuts_of_idle h hidle ht'
  obtain ⟨-, -, -, -, hderr⟩ := decoderLane_view_eq_iff.mp hview
  exact ⟨hderr.symm.trans hd, l, hrsp, List.append_cancel_left (hrsp'.symm.trans hlog)⟩

/-- A foreign symbol and the rest of its token, whatever is interleaved. -/
theorem send_foreign_symbol {A : Alphabet} {c : Symbol} {after : List Symbol} {ws : List CmdWord} {s t : State}
    (h : s.ReadyWith A) (hd : s.derr = false) (hc : A.rev c = none)
    (hcommands : decoderCommands ws = after.map .decPut ++ [.decEnd]) (hsend : send (encode (.decPut c) :: ws) s = .next t) :
    ∃ l, t.rsp = s.rsp ++ l ∧ decoderResponses l = [0x601] := by
  obtain ⟨u, hu, hrest⟩ := send_cons.mp hsend
  rw [execWord_encode, exec_decPut_foreign h hd hc, Host.Outcome.next.injEq] at hu
  subst hu
  obtain ⟨t', l, ht', hrsp, hrsp', -⟩ := send_decoderCommands (s := s.setDerr) h.mode hrest
  rw [hcommands] at ht'
  have hlog := send_decodeCall_of_derr (s := s.setDerr) h.mode rfl ht'
  exact ⟨l, hrsp, List.append_cancel_left (hrsp'.symm.trans hlog)⟩

/-- Settles O58: the bytes before the foreign symbol, then the error alone, which is what an observer of the log takes. -/
theorem failedDecodeIsTheErrorAlone : Obligations.FailedDecodeIsTheErrorAlone := by
  intro A s before after c ws ws' hinv hm halpha hidle hbefore hc hcommands hcommands'
  obtain ⟨I, rfl⟩ := A.exists_indices hbefore
  have h : s.ReadyWith A := ⟨hinv, hm, halpha⟩
  obtain ⟨t, ht⟩ := send_completes hinv ws
  have hready := h.of_send ht
  obtain ⟨u, hu⟩ := send_completes hready.inv (encode (.decPut c) :: ws')
  obtain ⟨hd, l, hrsp, hbytes⟩ := send_found_symbols h hidle hcommands ht
  obtain ⟨l', hrsp', herror⟩ := send_foreign_symbol hready hd (A.rev_eq_none_iff_notMem.mpr hc) hcommands' hu
  refine ⟨bytesOf I, t, l, u, l', A.decode_map_fwd I, ht, hrsp, hbytes, hu, hrsp', herror, ?_⟩
  obtain ⟨log, hlog, hkinds⟩ := send_ready_emits hm (send_append.mpr ⟨t, ht, hu⟩)
  rw [hrsp', hrsp, List.append_assoc, List.append_cancel_left_eq] at hlog
  subst hlog
  have hresponses : decoderResponses (l ++ l') = (bytesOf I).map byteWord ++ [0x601] := by
    rw [← hbytes, ← herror]
    exact List.filter_append ..
  rw [← decodeOutcomes_decoderResponses hkinds, hresponses]
  exact decodeOutcomes_error (bytesOf I) []

end Sys2Proof.Machine

namespace Sys2Proof.Machine

/-! ### The round trip through the block (spec/43_decode_commands.md R136) -/

/-- The invariants make the entries of `ALPHA` an alphabet in `READY`. -/
theorem State.Inv.exists_readyWith {s : State} (h : s.Inv) (hm : s.mode = .ready) : ∃ A : Alphabet, s.ReadyWith A :=
  ⟨⟨s.alpha, (pairwiseDistinct_iff_nodup s.alpha).mp (h.ready_distinct hm)⟩, h, hm, rfl⟩

theorem decoderCommands_encodeCall (M : List Byte) : decoderCommands (Pseudo.encode M).words = [] := by
  rw [words_encodeCall]
  simp [decoderCommands, decodeWord_encode, Instr.isDecoder, List.filterMap_map]

/-- An encode call does not touch the decoder lane. -/
theorem send_encodeCall_keeps_decoderIdle {M : List Byte} {s t : State} (hm : s.mode = .ready) (hidle : s.DecoderIdle)
    (hsend : send (Pseudo.encode M).words s = .next t) : t.DecoderIdle := by
  obtain ⟨t', -, ht', -, -, hview⟩ := send_decoderCommands hm hsend
  rw [decoderCommands_encodeCall] at ht'
  obtain rfl : s = t' := by simpa using ht'
  exact hidle.of_view hview

theorem symbolWord_eq_word (A : Alphabet) (g : Group) : symbolWord A.codes g = (Response.esym (A.fwd g)).word :=
  (word_esym _).symm

/-- The symbols collected from an encode call's answers are those of its groups. -/
theorem collectSymbols_encodeCall (A : Alphabet) (M : List Byte) :
    collectSymbols ((groupsOf M).map (symbolWord A.codes) ++ [0x400]) = A.encode M := by
  have hsymbols : ∀ w ∈ (groupsOf M).map (symbolWord A.codes), (kindField w == 0x3) = true := by
    simp [symbolWord_eq_word, Response.kind]
  have hclose : [0x400].filter (fun w : RspWord => kindField w == 0x3) = [] := by decide
  rw [collectSymbols, List.filter_append, List.filter_eq_self.mpr hsymbols, hclose, List.append_nil, List.map_map,
    Alphabet.encode]
  exact List.map_congr_left fun g _ => by rw [Function.comp_apply, symbolWord_eq_word, rspData_word, Response.data]

/-- A decode call that finds every symbol. -/
theorem send_decodeCall_of_ok {A : Alphabet} {T : List Symbol} {M : List Byte} {s t : State} (h : s.ReadyWith A)
    (hidle : s.DecoderIdle) (hT : A.decode T = .ok M) (hsend : send (Pseudo.decode T).words s = .next t) :
    t.rsp = s.rsp ++ (M.map byteWord ++ [0x600]) := by
  obtain ⟨-, I, w, hlog, ⟨rfl, rfl⟩ | ⟨-, c, after, rfl, hc⟩⟩ := send_decodeCall h hidle hsend
  · rw [A.decode_map_fwd, Decoded.ok.injEq] at hT
    rw [hlog, hT]
  · rw [A.decode_of_foreign _ _ hc] at hT
    cases hT

/-- Settles O43: the collected symbols are the encoded message, whose decode is the message. -/
theorem roundTripThroughTheBlock : Obligations.RoundTripThroughTheBlock := by
  intro s M hinv hm hencoder hdecoder
  obtain ⟨A, h⟩ := hinv.exists_readyWith hm
  obtain ⟨t, ht⟩ := send_completes hinv (Pseudo.encode M).words
  have hready := h.of_send ht
  obtain ⟨-, hrsp⟩ := send_encodeCall hm hencoder ht
  rw [h.alpha] at hrsp
  obtain ⟨u, hu⟩ := send_completes hready.inv (Pseudo.decode (A.encode M)).words
  have hlog := send_decodeCall_of_ok hready (send_encodeCall_keeps_decoderIdle hm hdecoder ht) (decodeUndoesEncode A M) hu
  exact ⟨t, _, u, ht, hrsp, by rwa [collectSymbols_encodeCall], by rw [hlog, List.append_assoc]; rfl⟩

end Sys2Proof.Machine

namespace Sys2Proof.Machine

/-! ### The decoder with the mode check (spec/30_encoding.md R66, 60_exceptions.md R142) -/

/-- The two halves of `decode_cmd` (R66): the word's pattern, then the mode. -/
theorem decodeCmd_eq_some_iff {w : CmdWord} {m : Mode} {i : Instr} :
    decodeCmd w m = some i ↔ decodeWord w = some i ∧ legalIn i m = true :=
  Option.filter_eq_some_iff

theorem decodeCmd_eq_none_iff {w : CmdWord} {m : Mode} :
    decodeCmd w m = none ↔ ∀ i, decodeWord w = some i → legalIn i m = false := by
  simp [decodeCmd, Option.filter_eq_none_iff]

/-- R142: a reserved word and a command that the mode does not make legal are refused alike. -/
theorem execWord_of_decodeCmd_none {w : CmdWord} {s : State} (hcmd : decodeCmd w s.mode = none) :
    execWord w s = .next (s.emits [.fault .illegalCommand]) := by
  cases hdec : decodeWord w with
  | none => exact execWord_of_reserved hdec s
  | some i => rw [execWord_of_command hdec, exec_of_not_legal (decodeCmd_eq_none_iff.mp hcmd i hdec)]

theorem execWord_of_decodeCmd_some {w : CmdWord} {s : State} {i : Instr} (hcmd : decodeCmd w s.mode = some i) :
    execWord w s = exec i s :=
  execWord_of_command (decodeCmd_eq_some_iff.mp hcmd).left s

/-- Settles O7: the step is the word's meaning on the state with the word consumed, which has the same mode. -/
theorem decodeCmdDecidesTheStep : Obligations.DecodeCmdDecidesTheStep := by
  intro s w rest hinp
  rw [step_eq_execWord hinp]
  refine ⟨fun hcmd => execWord_of_decodeCmd_none hcmd, fun i hcmd => execWord_of_decodeCmd_some hcmd, fun i => ?_⟩
  rw [decodeCmd_eq_some_iff, legalIn_iff]

/-! ### Nothing pending (spec/60_exceptions.md R150, R165) -/

/-- Settles O9: the fetch finds the block idle. -/
theorem idleStepHoldsTheState : Obligations.IdleStepHoldsTheState := fun _ => step_of_idle

/-! ### The mode `FAILED` (spec/60_exceptions.md R143, R147) -/

/-- R64: no command is legal in `FAILED`. -/
theorem decodeCmd_failed (w : CmdWord) : decodeCmd w .failed = none :=
  decodeCmd_eq_none_iff.mpr fun i _ => by cases i <;> rfl

theorem execWord_of_failed {w : CmdWord} {s : State} (hm : s.mode = .failed) :
    execWord w s = .next (s.emits [.fault .illegalCommand]) :=
  execWord_of_decodeCmd_none (by rw [hm, decodeCmd_failed])

/-- Settles O30, by induction on the words: each is refused, and the block stays in `FAILED`. -/
theorem failedRefusesEveryWord : Obligations.FailedRefusesEveryWord := by
  intro s ws hm
  induction ws generalizing s with
  | nil => simp
  | cons w ws ih =>
    have hrest := ih (s.emits [.fault .illegalCommand]) hm
    have hlog : (s.emits [.fault .illegalCommand]).rsp ++ List.replicate ws.length 0xF03 =
        s.rsp ++ List.replicate (w :: ws).length 0xF03 := by
      simp [word_fault, List.replicate_succ]
    rw [hlog] at hrest
    exact send_cons.mpr ⟨_, execWord_of_failed hm, hrest⟩

end Sys2Proof.Machine

namespace Sys2Proof.Machine

/-! ### Reset (spec/70_reset_and_hazards.md R170) -/

/-- `STATUS` is a view of the elements, so after a reset in any state it reads as in the reset record (R31). -/
theorem State.resetBlock_status (s : State) : s.resetBlock.status = 0x0000 := by
  obtain ⟨-, hreset, -⟩ := statusLayout
  calc s.resetBlock.status
    _ = State.reset.status := rfl
    _ = 0x0000 := hreset

/-- Settles O13: the step is `resetBlock` on the state with the event consumed, which takes every element from the reset record
(R32) and both port lists from that state. -/
theorem resetStep : Obligations.ResetStep := by
  intro s rest hinp
  obtain ⟨hmode, hcfgcnt, halpha, heacc, hecnt, hdacc, hdcnt, hderr⟩ := resetValues
  exact ⟨({ s with inp := rest } : State).resetBlock, step_of_reset hinp, hmode, hcfgcnt, halpha, heacc, hecnt, hdacc, hdcnt,
    hderr, rfl, rfl, State.resetBlock_status _⟩

/-! ### The block is never stuck (spec/70_reset_and_hazards.md R190) -/

/-- Settles O18: every step and every run completes from a state that meets the invariants, and the reset state meets them with any
pending port events. -/
theorem theBlockIsNeverStuck : Obligations.TheBlockIsNeverStuck :=
  ⟨fun _ h => step_completes h, fun inp n => run_completes (State.reset_inv.with_ports inp []) n⟩

end Sys2Proof.Machine
